-- ==== Sys2Proof/Word.lean ====
section
/-! DEFINITION. The word types of the core and its small closed sets of names.
K = 32 (00_scope.md R3, decision D3); FIW = FPW = 8 (D10). Numbers of the spec are unsigned. -/

namespace Sys2Proof

/-- A character: 8 bits (10 R17, decision D15). -/
abbrev Byte := BitVec 8

/-- A string of characters, its first character first (20 R42). -/
abbrev Text := List Byte

/-- A timestamp or a duration: K = 32 bits (00 R3). -/
abbrev Ts := BitVec 32

/-- The operation word of K + 4 = 36 bits (30 R60). -/
abbrev OpWord := BitVec 36

/-- The six symbols the Pulse Classifier returns, in table order (30 R62). -/
inductive Symbol
  | msgStart
  | frameConf
  | frameStart
  | bit0
  | bit1
  | invalid
  deriving DecidableEq, Repr

/-- The three agents that act on the core (00 R2). -/
inductive Agent
  | handler
  | flusher
  | host
  deriving DecidableEq, Repr

/-- The protocol state (10 R12): three values and no fourth. -/
inductive Phase
  | idle
  | preConf
  | inMsg
  deriving DecidableEq, Repr

/-- The eight kinds of fragment, in the order of their `kind` number 0 .. 7 (30 R63). -/
inductive Fragment
  | msg
  | conf
  | frame (index : BitVec 8)
  | bit (b : Bool)
  | byteSep
  | hex (v : Byte)
  | frameDone
  | seqDone
  deriving DecidableEq, Repr

end Sys2Proof
end

