-- ==== Sys2Proof/Config.lean ====
section
/-! DEFINITION. The configuration record `Cfg` of 00_scope.md R3 and the straps of 10_state.md R20.
It is an input of every step, never written by one (20 R54, decision D22).
Presets, defaults, the strap codes and the legality check are in Machine/Parameters.lean. -/

namespace Sys2Proof

/-- Rendering mode (00 R3). -/
inductive Verbosity
  | compact
  | trace
  deriving DecidableEq, Repr

/-- Confirmation strictness (00 R3). -/
inductive Strictness
  | permissive
  | strict
  deriving DecidableEq, Repr

/-- Which submitted bit is the most significant of the byte (00 R3, 90 C1). -/
inductive BitOrder
  | lastIsMsb
  | firstIsMsb
  deriving DecidableEq, Repr

/-- One duration window; both bounds are exclusive (41 R90). -/
structure Window where
  lo : Ts
  hi : Ts
  deriving DecidableEq, Repr

/-- The static parameters of the core (00 R3): straps (10 R20), capacity and marker texts. -/
structure Cfg where
  verbosity : Verbosity
  strictness : Strictness
  bitOrder : BitOrder
  ms : Window
  fc : Window
  fs : Window
  b0 : Window
  b1 : Window
  cap : Nat
  txtMsg : Text
  txtConf : Text
  txtFramePre : Text
  txtFramePost : Text
  txtFrameDone : Text
  txtSeqDone : Text
  deriving DecidableEq, Repr

end Sys2Proof
end

