-- ==== Sys2Proof/Machine/Classifier.lean ====
section
/-! DEFINITION. The Duration Computer (40 R82) and the Pulse Classifier (41 R90): pure functions. -/

namespace Sys2Proof

/-- 40 R82, in the two branches the rule gives; `MAX = 2^32 - 1`. -/
def duration (prev cur : Ts) : Ts :=
  if cur < prev then (BitVec.allOnes 32 - prev + 1) + cur else cur - prev

/-- Strict unsigned comparison with both bounds (41 R90). -/
def Window.contains (w : Window) (d : Ts) : Bool := decide (w.lo < d) && decide (d < w.hi)

/-- 41 R90: the first window of the fixed order that contains the duration. -/
def classify (c : Cfg) (d : Ts) : Symbol :=
  if c.ms.contains d then .msgStart
  else if c.fc.contains d then .frameConf
  else if c.fs.contains d then .frameStart
  else if c.b0.contains d then .bit0
  else if c.b1.contains d then .bit1
  else .invalid

end Sys2Proof
end

