-- ==== Sys2Proof/Machine/Parameters.lean ====
section
/-! DEFINITION. Parameter values: the presets of the windows (00 R6, 41 R98), the default marker texts
(30 R63), the protocol constants (00 R5), the strap codes (10 R20) and the legality of a configuration (00 R4). -/

namespace Sys2Proof

/-- The characters of a text as 8-bit codes, ASCII (30 R66; PRESUMED, log entry 18: the codes are general knowledge). -/
def ascii (cs : List Char) : Text := cs.map fun c => BitVec.ofNat 8 c.toNat

/-- `SHORT_FRAME_BYTES` (00 R5). -/
def shortFrameBytes : BitVec 8 := 8

/-- `LAST_FRAME_BYTES` (00 R5). -/
def lastFrameBytes : BitVec 8 := 19

/-- `LAST_FRAME_INDEX` (00 R5). -/
def lastFrameIndex : BitVec 8 := 2

/-- 10 R20: 0 = PERMISSIVE, 1 = STRICT. -/
def Strictness.strap : Strictness → Bool
  | .permissive => false
  | .strict => true

/-- The strictness a strap level stands for (10 R20). -/
def Strictness.ofStrap (b : Bool) : Strictness := if b then .strict else .permissive

/-- 10 R20: 0 = COMPACT, 1 = TRACE. -/
def Verbosity.strap : Verbosity → Bool
  | .compact => false
  | .trace => true

/-- 10 R20: 0 = LAST_IS_MSB, 1 = FIRST_IS_MSB. -/
def BitOrder.strap : BitOrder → Bool
  | .lastIsMsb => false
  | .firstIsMsb => true

/-- 00 R4. K, FIW and FPW are fixed at 32, 8 and 8 and every bound is a 32-bit word, so `CAP >= 1` is what is left to check. -/
def Cfg.legal (c : Cfg) : Bool := decide (1 ≤ c.cap)

/-- The defaults of 30 R63 and D16, CALIBRATED windows (41 R98), for a given verbosity and strictness: those two have no default in
the spec (D23), so they are arguments. -/
def Cfg.calibrated (v : Verbosity) (σ : Strictness) : Cfg where
  verbosity := v
  strictness := σ
  bitOrder := .lastIsMsb
  ms := ⟨24500, 26000⟩
  fc := ⟨1500, 1700⟩
  fs := ⟨34000, 36000⟩
  b0 := ⟨200, 450⟩
  b1 := ⟨1100, 1300⟩
  cap := 256
  txtMsg := ascii ['\n', 'M', 'S', 'G', '\n']
  txtConf := ascii ['C', 'O', 'N', 'F', '\n']
  txtFramePre := ascii ['\n', 'F']
  txtFramePost := ascii [':']
  txtFrameDone := ascii [' ', 'F', 'R', 'A', 'M', 'E', '_', 'O', 'K', '\n']
  txtSeqDone := ascii ['S', 'E', 'Q', '_', 'O', 'K', '\n']

/-- The same with the windows of the preset ALTERNATE (41 R98). -/
def Cfg.alternate (v : Verbosity) (σ : Strictness) : Cfg :=
  { Cfg.calibrated v σ with fc := ⟨1150, 1700⟩, b0 := ⟨300, 450⟩, b1 := ⟨1150, 1300⟩ }

end Sys2Proof
end

