-- ==== Sys2Proof/Syntax.lean ====
section
/-! DEFINITION. One constructor per row of spec/opcode_table.json. -/

namespace Sys2Proof

/-- The operations of the core: five port operations (30 R61) and the seven symbol handlers (30 R62). -/
inductive Instr
  | reset
  | edgeRise (ts : Ts)
  | edgeFall (ts : Ts)
  | flush
  | nop
  | msgStart
  | frameConfP
  | frameConfS
  | frameStart
  | bit0
  | bit1
  | invalid (d : Ts)
  deriving DecidableEq, Repr

end Sys2Proof
end

