-- ==== Sys2Proof/WellFormed.lean ====
section
/-! DEFINITION. When an operation is one the core can perform under a configuration. Every timestamp is legal (30 R69 (e)), so only the
rows whose encoding depends on the configuration or on the classifier have a check. -/

namespace Sys2Proof

/-- `FRAME_CONF.P` and `FRAME_CONF.S` are selected by the strap (42 R100); `INVALID` carries a duration outside all five windows (42 R107). The other
symbols carry no duration, so the classifier's windows put no check on them (DESIGN CHOICE, log entry 28). -/
def Instr.wf (c : Cfg) : Instr → Bool
  | .reset => true
  | .edgeRise _ => true
  | .edgeFall _ => true
  | .flush => true
  | .nop => true
  | .msgStart => true
  | .frameConfP => decide (c.strictness = .permissive)
  | .frameConfS => decide (c.strictness = .strict)
  | .frameStart => true
  | .bit0 => true
  | .bit1 => true
  | .invalid d => decide (classify c d = .invalid)

end Sys2Proof
end

