-- ==== Sys2Proof/Decode.lean ====
section
/-! DEFINITION. Decoding and encoding of the operation word (30 R60, R61) and of the dispatch value (30 R62).
No word is stored in the core (10 R23): an operation word is what the ports carry when an operation is accepted, a dispatch value is
what the classifier hands to `Handle`, with the duration beside it. -/

namespace Sys2Proof

/-- Why bits are no instruction. -/
inductive DecodeError
  /-- more bits set than the format has (36 for a word, 4 for a dispatch value) -/
  | bitsBeyondFormat
  /-- symbol code 6 or 7, never produced (30 R69 (b)) -/
  | noSuchSymbol
  deriving DecidableEq, Repr

/-- An encoded instruction in one of the two formats of the opcode table. -/
inductive Code
  /-- format OP: the operation word of 30 R60 -/
  | op (w : OpWord)
  /-- format SYM: the dispatch value {cfg_strict, code[2:0]} of 30 R62 and the duration handed on with it (42 R100) -/
  | sym (v : BitVec 4) (d : Ts)
  deriving DecidableEq, Repr

/-- The control field {rst, flush_req, edge_valid, edge_dir} (30 R61). -/
def OpWord.ctl (w : OpWord) : BitVec 4 := w.extractLsb' 32 4
/-- Bit K + 3 (30 R60). -/
def OpWord.rst (w : OpWord) : Bool := w.getLsbD 35
/-- Bit K + 2 (30 R60). -/
def OpWord.flushReq (w : OpWord) : Bool := w.getLsbD 34
/-- Bit K + 1 (30 R60). -/
def OpWord.edgeValid (w : OpWord) : Bool := w.getLsbD 33
/-- Bit K (30 R60): 1 = Rising. -/
def OpWord.edgeDir (w : OpWord) : Bool := w.getLsbD 32
/-- Bits K-1 : 0 (30 R60). -/
def OpWord.edgeTs (w : OpWord) : Ts := w.extractLsb' 0 32

/-- A word from its control field and timestamp (30 R60). -/
def OpWord.make (ctl : BitVec 4) (ts : Ts) : OpWord := ctl ++ ts

/-- The operation a word asks for first in the table of 30 R61; total, since no control field is illegal. -/
def decodeOp (w : OpWord) : Instr :=
  if OpWord.rst w then .reset
  else if OpWord.edgeValid w then
    if OpWord.edgeDir w then .edgeRise (OpWord.edgeTs w) else .edgeFall (OpWord.edgeTs w)
  else if OpWord.flushReq w then .flush
  else .nop

/-- `ctl = 011x`: the word asks for a FLUSH beside its edge operation (30 R61). -/
def OpWord.alsoFlush (w : OpWord) : Bool := !OpWord.rst w && OpWord.edgeValid w && OpWord.flushReq w

/-- All the operations a word performs (30 R61; `RESET` overrides everything). -/
def opsOf (w : OpWord) : List Instr := if OpWord.alsoFlush w then [decodeOp w, .flush] else [decodeOp w]

/-- 30 R62. -/
def Symbol.code : Symbol → BitVec 3
  | .msgStart => 0
  | .frameConf => 1
  | .frameStart => 2
  | .bit0 => 3
  | .bit1 => 4
  | .invalid => 5

/-- 30 R62; codes 6 and 7 are refused by name (30 R69 (b)). -/
def symbolOfCode (v : BitVec 3) : Except DecodeError Symbol :=
  if v = 0 then .ok .msgStart
  else if v = 1 then .ok .frameConf
  else if v = 2 then .ok .frameStart
  else if v = 3 then .ok .bit0
  else if v = 4 then .ok .bit1
  else if v = 5 then .ok .invalid
  else .error .noSuchSymbol

/-- The handler a symbol selects (42 R100). -/
def symInstr (σ : Strictness) (y : Symbol) (d : Ts) : Instr :=
  match y with
  | .msgStart => .msgStart
  | .frameConf => if σ = .permissive then .frameConfP else .frameConfS
  | .frameStart => .frameStart
  | .bit0 => .bit0
  | .bit1 => .bit1
  | .invalid => .invalid d

/-- Format SYM: bit 3 is `cfg_strict`, bits 2 .. 0 the symbol code (30 R62). -/
def decodeSym (v : BitVec 4) (d : Ts) : Except DecodeError Instr :=
  match symbolOfCode (v.extractLsb' 0 3) with
  | .ok y => .ok (symInstr (Strictness.ofStrap (v.getLsbD 3)) y d)
  | .error e => .error e

/-- The decoder, total on every code. -/
def decode : Code → Except DecodeError Instr
  | .op w => .ok (decodeOp w)
  | .sym v d => decodeSym v d

/-- The dispatch value {cfg_strict, code[2:0]} (30 R62). -/
def dispatchValue (σ : Strictness) (y : Symbol) : BitVec 4 := BitVec.ofBool σ.strap ++ y.code

/-- The encoder: the canonical words of 30 R61, the dispatch values of 30 R62 under strictness `σ`
(the two `FRAME_CONF` rows fix the strap bit themselves). A symbol that carries no duration is written with duration 0. -/
def encode (σ : Strictness) : Instr → Code
  | .reset => .op (OpWord.make 0b1000 0)
  | .edgeRise ts => .op (OpWord.make 0b0011 ts)
  | .edgeFall ts => .op (OpWord.make 0b0010 ts)
  | .flush => .op (OpWord.make 0b0100 0)
  | .nop => .op (OpWord.make 0b0000 0)
  | .msgStart => .sym (dispatchValue σ .msgStart) 0
  | .frameConfP => .sym (dispatchValue .permissive .frameConf) 0
  | .frameConfS => .sym (dispatchValue .strict .frameConf) 0
  | .frameStart => .sym (dispatchValue σ .frameStart) 0
  | .bit0 => .sym (dispatchValue σ .bit0) 0
  | .bit1 => .sym (dispatchValue σ .bit1) 0
  | .invalid d => .sym (dispatchValue σ .invalid) d

/-- The code that the bits `w` of an opcode-table row of `nbits` bits (whole bytes) stand for: the 4-bit rows of format SYM are given one byte,
the 36-bit rows of format OP five. The duration of a symbol has no bits in the table and is 0 (DESIGN CHOICE, log entry 14). -/
def codeOfTableWord (nbits w : Nat) : Except DecodeError Code :=
  if nbits ≤ 8 then
    if w < 2 ^ 4 then .ok (.sym (BitVec.ofNat 4 w) 0) else .error .bitsBeyondFormat
  else
    if w < 2 ^ 36 then .ok (.op (BitVec.ofNat 36 w)) else .error .bitsBeyondFormat

/-- The instruction the decoder reads from an opcode-table word. -/
def decodeTableWord (nbits w : Nat) : Option Instr :=
  match codeOfTableWord nbits w with
  | .ok c => (decode c).toOption
  | .error _ => none

/-- The agent that performs an operation (the `agent` column of the opcode table; the symbol handlers run in the HANDLER, 42 preamble). -/
def Instr.agent : Instr → Option Agent
  | .reset => some .host
  | .edgeRise _ => some .handler
  | .edgeFall _ => some .handler
  | .flush => some .flusher
  | .nop => none
  | .msgStart => some .handler
  | .frameConfP => some .handler
  | .frameConfS => some .handler
  | .frameStart => some .handler
  | .bit0 => some .handler
  | .bit1 => some .handler
  | .invalid _ => some .handler

end Sys2Proof
end

