-- ==== Sys2Proof/Machine/State.lean ====
section
/-! DEFINITION. The state of the core (10_state.md R10), the histories beside it (10 R21), the environment's pending stimuli, and the
outcomes. Plain data throughout. -/

namespace Sys2Proof.Machine

/-- The memory `buf[0 .. CAP-1]` as a list of cells in canonical form: addresses rising, no cell equal to what an unlisted one reads as. -/
abbrev Memory := List Host.Cell

/-- The code of a warning record (30 R67); codes 0 and 3 are never produced. -/
inductive WarnCode
  /-- `W_DECODE`, code 1 -/
  | decode
  /-- `W_INCOMPLETE`, code 2 -/
  | incomplete
  deriving DecidableEq, Repr

/-- A record of the error channel (30 R67). -/
structure Warning where
  code : WarnCode
  info : Ts
  deriving DecidableEq, Repr

/-- What the surroundings present next. The placement data is the arbiter's: which agent takes the buffer lock when (20 R47, D20). -/
inductive Stimulus
  /-- An operation word (30 R60). `grant` places the word's own flush request when it comes with an edge: 0 = the FLUSHER first,
  k > 0 = after the k-th Append of the edge operation, or after the operation if it makes fewer. `slots` holds the other FLUSHes
  that fall inside the edge operation: its k-th entry says whether one falls after the k-th Append (`FLUSH @k`, 30 R71). -/
  | word (w : OpWord) (grant : Nat) (slots : List Bool)
  /-- A symbol handed to `Handle` with its duration (42 R100): the component-level entry (60 R173), which the real block reaches only
  through `EDGE_FALL`. The strap bit of its dispatch value is the configuration's. -/
  | symbol (code : BitVec 3) (d : Ts) (slots : List Bool)
  deriving DecidableEq, Repr

/-- The whole machine. The first nine fields are the registers of 10 R10; `cfg` the straps (10 R20); `sink` and `err` the histories
(10 R21); `inputs` and `slots` the environment's (log entries 1 and 5). -/
structure State where
  riseTs : Ts
  phase : Phase
  frameIndex : BitVec 8
  framePos : BitVec 8
  bitCount : BitVec 4
  bits : Vector Bool 8
  mem : Memory
  len : Nat
  fatal : Bool
  cfg : Cfg
  sink : List Text
  err : List Warning
  inputs : List Stimulus
  slots : List Bool
  deriving DecidableEq, Repr

/-- The faults of the model. Neither is reached from a state that meets the invariant of 10 R22 (Safety.lean, `State.Inv`). -/
inductive Fault
  /-- Raised by MemRead and MemWrite when `addr + n > CAP` (20 R41: no out-of-range access exists to define). Safe: the machine stops. -/
  | bufferRange
  /-- Raised by SubmitBit when `bit_count > 7` on entry (43 R130: the write index is in range). Safe: the machine stops. -/
  | accumulatorRange
  deriving DecidableEq, Repr

/-- Why a step has no meaning. -/
inductive Refusal
  /-- An instruction whose meaning is not written: raised by exec's arms only. Safe. -/
  | notModelled (mnemonic : String)
  /-- Raised by step when the configuration breaks 00 R4 ("refused by the model"). Safe. -/
  | illegalConfig
  /-- Raised by step on a symbol stimulus whose code is 6 or 7, never produced (30 R69 (b)). Safe. -/
  | noSuchSymbol
  /-- Raised by step on a symbol stimulus INVALID whose duration lies in a window, which the classifier never hands on (42 R107). Safe. -/
  | illFormed
  deriving DecidableEq, Repr

/-- How a procedure of the core ends: it completes, a `raise Fatal` abandoned it (60 R163), or the model stops. -/
inductive Flow
  | done (s : State)
  | halted (s : State)
  | fault (f : Fault)
  deriving DecidableEq, Repr

/-- The state after `RESET` under a configuration (10 section 9, 70 R180), nothing yet received by the sink or the error channel.
`buf` is unspecified and unobservable; the model's cells read 0 (DESIGN CHOICE, log entry 4). -/
def State.resetWith (c : Cfg) : State where
  riseTs := 0
  phase := .idle
  frameIndex := 0
  framePos := 0
  bitCount := 0
  bits := #v[false, false, false, false, false, false, false, false]
  mem := []
  len := 0
  fatal := false
  cfg := c
  sink := []
  err := []
  inputs := []
  slots := []

/-- The machine right after reset. Its configuration is a DESIGN CHOICE (log entry 3): the spec leaves verbosity, strictness and preset open
(D5, D23). -/
def State.reset : State := State.resetWith (Cfg.calibrated .compact .permissive)

end Sys2Proof.Machine
end

