-- ==== Sys2Proof/Machine/Flags.lean ====
section
/-! DEFINITION. The status outputs (10 R19), which are functions of the state that no rule of the core reads, and the numeric codes
of the phase (10 R12) and of the warnings (30 R67). -/

namespace Sys2Proof.Machine

/-- `in_sequence = (phase == INMSG)` (10 R19). -/
def State.inSequence (s : State) : Bool := decide (s.phase = .inMsg)

/-- `buf_empty = (len == 0)` (10 R19). -/
def State.bufEmpty (s : State) : Bool := decide (s.len = 0)

/-- The status output `fatal` (10 R19). -/
def State.fatalOut (s : State) : Bool := s.fatal

/-- 10 R12. -/
def phaseCode : Phase → BitVec 2
  | .idle => 0
  | .preConf => 1
  | .inMsg => 2

/-- 30 R67. -/
def warnCodeBits : WarnCode → BitVec 2
  | .decode => 1
  | .incomplete => 2

end Sys2Proof.Machine
end

