-- ==== Sys2Proof/Machine/Operands.lean ====
section
/-! DEFINITION. The operands assembled from smaller pieces (30 R68) and the renderings: decimal and hexadecimal numerals
(30 R64, R65), the texts of the eight fragments (30 R63), the byte value of the accumulator (43 R131), saturating increment (42 R113). -/

namespace Sys2Proof.Machine

/-- The character of one digit, `"0"` .. `"9"` then `"a"` .. `"f"` (30 R65, R66). -/
def digitChar (x : Nat) : Byte := BitVec.ofNat 8 (if x < 10 then 0x30 + x else 0x61 + (x - 10))

/-- Decimal digits, most significant first; `fuel` bounds their number. -/
def decDigits : Nat → Nat → Text
  | 0, _ => []
  | fuel + 1, n => if n < 10 then [digitChar n] else decDigits fuel (n / 10) ++ [digitChar (n % 10)]

/-- `dec(n)`: the decimal numeral with no leading zero (30 R64). -/
def dec (n : Nat) : Text := decDigits (n + 1) n

/-- `hex2(v)`: the high nibble's digit, then the low nibble's (30 R65). -/
def hex2 (v : Byte) : Text := [digitChar (v.toNat / 16), digitChar (v.toNat % 16)]

/-- The text of a fragment (30 R63). -/
def fragmentText (c : Cfg) : Fragment → Text
  | .msg => c.txtMsg
  | .conf => c.txtConf
  | .frame n => c.txtFramePre ++ dec n.toNat ++ c.txtFramePost
  | .bit b => [digitChar b.toNat]
  | .byteSep => [0x20, 0x20]
  | .hex v => hex2 v
  | .frameDone => c.txtFrameDone
  | .seqDone => c.txtSeqDone

/-- One turn of the loop of 43 R131: shift left and add the cell. -/
def shiftIn (v : Byte) (b : Bool) : Byte := (v <<< 1) + (BitVec.ofBool b).zeroExtend 8

/-- `assemble()` (43 R131): from cell 7 down to cell 0 under LAST_IS_MSB, from cell 0 up to cell 7 under FIRST_IS_MSB. -/
def assemble (o : BitOrder) (bits : Vector Bool 8) : Byte :=
  match o with
  | .lastIsMsb => bits.toList.reverse.foldl shiftIn 0
  | .firstIsMsb => bits.toList.foldl shiftIn 0

/-- `satinc_W(v)` (42 R113). -/
def satinc (v : BitVec 8) : BitVec 8 := if v.toNat < 2 ^ 8 - 1 then v + 1 else v

end Sys2Proof.Machine
end

