-- ==== Sys2Proof/Machine/Ops.lean ====
section
/-! DEFINITION. The named operations over registers and memory: MemRead and MemWrite (20 R41), the register updates, the two ways an
error is raised (60 R163, R164), Append and Flush (44 R140, R141), and the points where the FLUSHER may take the lock (20 R47). -/

namespace Sys2Proof.Machine

/-- What a cell of `buf` that nothing has written reads as. The spec leaves it unspecified and unobservable (10 R17); 0 is a DESIGN CHOICE
(log entry 4). -/
def memDefault : Byte := 0

/-- One character of `buf`. -/
def Memory.read : Memory → Nat → Byte
  | [], _ => memDefault
  | c :: m, a => if a = c.1 then c.2 else Memory.read m a

/-- A cell put before the rest, or left out when it equals what an unlisted cell reads as. -/
def Memory.put (a : Nat) (v : Byte) (m : Memory) : Memory := if v = memDefault then m else (a, v) :: m

/-- Writes one character, keeping the canonical form. -/
def Memory.write : Memory → Nat → Byte → Memory
  | [], a, v => Memory.put a v []
  | c :: m, a, v =>
    if a < c.1 then Memory.put a v (c :: m)
    else if a = c.1 then Memory.put a v m
    else c :: Memory.write m a v

/-- The canonical form: addresses strictly rising, no cell equal to the default. -/
abbrev Memory.wf (m : Memory) : Prop := m.Pairwise (fun c d => c.1 < d.1) ∧ ∀ c ∈ m, c.2 ≠ memDefault

/-- `buf[a .. a + n - 1]`, lowest index first. -/
def Memory.readSpan (m : Memory) (a : Nat) : Nat → Text
  | 0 => []
  | n + 1 => Memory.read m a :: Memory.readSpan m (a + 1) n

/-- `t[0]` at `a`, `t[1]` at `a + 1`, and so on. -/
def Memory.writeSpan (m : Memory) (a : Nat) : Text → Memory
  | [] => m
  | v :: t => Memory.writeSpan (Memory.write m a v) (a + 1) t

def State.withRiseTs (s : State) (x : Ts) : State := { s with riseTs := x }
def State.withPhase (s : State) (x : Phase) : State := { s with phase := x }
def State.withFrameIndex (s : State) (x : BitVec 8) : State := { s with frameIndex := x }
def State.withFramePos (s : State) (x : BitVec 8) : State := { s with framePos := x }
def State.withBitCount (s : State) (x : BitVec 4) : State := { s with bitCount := x }
def State.withBits (s : State) (x : Vector Bool 8) : State := { s with bits := x }
def State.withMem (s : State) (x : Memory) : State := { s with mem := x }
def State.withLen (s : State) (x : Nat) : State := { s with len := x }
def State.withFatal (s : State) (x : Bool) : State := { s with fatal := x }
def State.withCfg (s : State) (x : Cfg) : State := { s with cfg := x }
def State.withSink (s : State) (x : List Text) : State := { s with sink := x }
def State.withErr (s : State) (x : List Warning) : State := { s with err := x }
def State.withInputs (s : State) (x : List Stimulus) : State := { s with inputs := x }
def State.withSlots (s : State) (x : List Bool) : State := { s with slots := x }

/-- The three counters zeroed (42 R101, R103, R108). -/
def State.zeroCounters (s : State) : State := ((s.withFrameIndex 0).withFramePos 0).withBitCount 0

/-- `FullReset()` (42 R108): nothing but the phase and the three counters. -/
def fullReset (s : State) : State := (s.withPhase .idle).zeroCounters

/-- Sequencing: what follows runs only if what precedes completed. -/
def Flow.andThen (r : Flow) (f : State → Flow) : Flow :=
  match r with
  | .done s => f s
  | .halted s => .halted s
  | .fault e => .fault e

/-- The outcome of an operation whose pseudocode ended so: after a `raise Fatal` the operation is over and the state stands (60 R163). -/
def Flow.outcome (r : Flow) : Host.Outcome State Fault Refusal :=
  match r with
  | .done s => .next s
  | .halted s => .next s
  | .fault e => .fault e

/-- `raise Fatal` (60 R163): the sticky bit is set and every remaining line is abandoned. -/
def raiseFatal (s : State) : Flow := .halted (s.withFatal true)

/-- `raise Warn(code, info)` (60 R164): a record on the error channel, then the next line. -/
def raiseWarn (code : WarnCode) (info : Ts) (s : State) : State := s.withErr (s.err ++ [⟨code, info⟩])

/-- `MemRead(addr, n)` on `buf` (20 R41). -/
def memRead (s : State) (addr n : Nat) : Except Fault Text :=
  if addr + n ≤ s.cfg.cap then .ok (s.mem.readSpan addr n) else .error .bufferRange

/-- `MemWrite(addr, |t|, t)` on `buf` (20 R41). -/
def memWrite (s : State) (addr : Nat) (t : Text) : Flow :=
  if addr + t.length ≤ s.cfg.cap then .done (s.withMem (s.mem.writeSpan addr t)) else .fault .bufferRange

/-- `Flush()` (44 R141). -/
def flush (s : State) : Flow :=
  if 0 < s.len then
    match memRead s 0 s.len with
    | .ok burst => .done ((s.withSink (s.sink ++ [burst])).withLen 0)
    | .error e => .fault e
  else .done s

/-- The last two lines of `Append` (44 R140): write at the cursor, advance it. -/
def writeAtCursor (t : Text) (s : State) : Flow :=
  (memWrite s s.len t).andThen fun s => .done (s.withLen (s.len + t.length))

/-- `Append(t)` (44 R140): flush first when the fragment does not fit, `raise Fatal` when it still does not. -/
def append (t : Text) (s : State) : Flow :=
  if s.cfg.cap < s.len + t.length then
    (flush s).andThen fun s =>
      if s.cfg.cap < s.len + t.length then raiseFatal s else writeAtCursor t s
  else writeAtCursor t s

/-- The index `Append(t)` writes `t[0]` at (44 R140): the cursor, or 0 after the overflow flush. -/
def appendAddr (t : Text) (s : State) : Nat := if s.cfg.cap < s.len + t.length then 0 else s.len

/-- The operation `FLUSH` of the FLUSHER (44 R142). -/
def flusherFlush (s : State) : Flow := if s.fatal then .done s else flush s

/-- The point after a completed buffer step of the HANDLER: the FLUSHER takes the lock here or does not (20 R47), as the arbiter's next
entry says. -/
def grantPoint (s : State) : Flow :=
  match s.slots with
  | [] => .done s
  | false :: rest => .done (s.withSlots rest)
  | true :: rest => flusherFlush (s.withSlots rest)

/-- One fragment handed to `Append`, and the point after it. -/
def emit (f : Fragment) (s : State) : Flow := (append (fragmentText s.cfg f) s).andThen grantPoint

end Sys2Proof.Machine
end

