-- ==== Sys2Proof/Machine/Handlers.lean ====
section
/-! DEFINITION. The Byte Assembler (43 R130 to R134), the frame-completion policy (42 R109) and the handlers of the six symbols
(42 R101 to R107), line by line as their pseudocode. -/

namespace Sys2Proof.Machine

/-- `FrameCompletionPolicy()` (42 R109). -/
def frameCompletionPolicy (s : State) : Flow :=
  let s := s.withFramePos (satinc s.framePos)
  if (s.frameIndex = 0 ∨ s.frameIndex = 1) ∧ s.framePos = shortFrameBytes then
    emit .frameDone s
  else if s.frameIndex = lastFrameIndex ∧ s.framePos = lastFrameBytes then
    (emit .frameDone s).andThen fun s =>
    (emit .seqDone s).andThen fun s =>
    (flush s).andThen fun s =>
    .done (fullReset s)
  else .done s

/-- The fragment a completed byte is rendered as (43 R132, R133). -/
def byteFragment (s : State) : Fragment :=
  match s.cfg.verbosity with
  | .compact => .hex (assemble s.cfg.bitOrder s.bits)
  | .trace => .byteSep

/-- `CompleteByte()` (43 R134): render, then the policy, then clear the count. -/
def completeByte (s : State) : Flow :=
  (emit (byteFragment s) s).andThen fun s =>
  (frameCompletionPolicy s).andThen fun s =>
  .done (s.withBitCount 0)

/-- The accumulator's part of `SubmitBit` (43 R130): store the bit, count it, complete the byte at 8. -/
def storeBit (b : Bool) (s : State) : Flow :=
  if h : s.bitCount.toNat < 8 then
    let s := (s.withBits (s.bits.set s.bitCount.toNat b h)).withBitCount (s.bitCount + 1)
    if s.bitCount = 8 then completeByte s else .done s
  else .fault .accumulatorRange

/-- `SubmitBit(b)` (43 R130). -/
def submitBit (b : Bool) (s : State) : Flow :=
  match s.cfg.verbosity with
  | .trace => (emit (.bit b) s).andThen (storeBit b)
  | .compact => storeBit b s

/-- The first line of 42 R101 and R104: `W_INCOMPLETE` when a partial byte is about to be discarded (60 R162). -/
def warnIncomplete (s : State) : State :=
  if s.bitCount ≠ 0 then raiseWarn .incomplete (s.bitCount.zeroExtend 32) s else s

/-- 42 R101. -/
def handleMsgStart (s : State) : Flow :=
  let s := (warnIncomplete s).zeroCounters
  let s := s.withPhase (if s.cfg.strictness = .permissive then .inMsg else .preConf)
  emit .msg s

/-- 42 R102: nothing. -/
def handleFrameConfP (s : State) : Flow := .done s

/-- 42 R103. -/
def handleFrameConfS (s : State) : Flow :=
  let seen := s.phase ≠ .idle
  let s := s.zeroCounters
  if seen then emit .conf (s.withPhase .inMsg) else .done (s.withPhase .idle)

/-- 42 R104; the label is the index after the increment. -/
def handleFrameStart (s : State) : Flow :=
  let s := warnIncomplete s
  let s := s.withFrameIndex (satinc s.frameIndex)
  let s := (s.withFramePos 0).withBitCount 0
  emit (.frame s.frameIndex) s

/-- 42 R105. -/
def handleBit0 (s : State) : Flow := submitBit false s

/-- 42 R106. -/
def handleBit1 (s : State) : Flow := submitBit true s

/-- 42 R107. -/
def handleInvalid (d : Ts) (s : State) : Flow :=
  let s := if s.phase = .inMsg then raiseWarn .decode d s else s
  .done (fullReset s)

/-- `Handle(s, d)` (42 R100): exactly one handler, by the symbol and, for FRAME_CONF, the strictness. -/
def handle (y : Symbol) (d : Ts) (s : State) : Flow :=
  match y with
  | .msgStart => handleMsgStart s
  | .frameConf => if s.cfg.strictness = .permissive then handleFrameConfP s else handleFrameConfS s
  | .frameStart => handleFrameStart s
  | .bit0 => handleBit0 s
  | .bit1 => handleBit1 s
  | .invalid => handleInvalid d s

/-- The guard every operation but `RESET` begins with: nothing happens while `fatal == 1` (60 R163, 10 R18). -/
def unlessFatal (s : State) (f : State → Flow) : Host.Outcome State Fault Refusal :=
  if s.fatal then .next s else (f s).outcome

end Sys2Proof.Machine
end

