-- ==== Sys2Proof/Machine/Edge.lean ====
section
/-! DEFINITION. The two edge operations (40 R80, R81). -/

namespace Sys2Proof.Machine

/-- `EDGE_RISE` (40 R80). -/
def execEdgeRise (ts : Ts) (s : State) : Host.Outcome State Fault Refusal :=
  unlessFatal s fun s => .done (s.withRiseTs ts)

/-- `EDGE_FALL` (40 R81): measure, classify, dispatch. -/
def execEdgeFall (ts : Ts) (s : State) : Host.Outcome State Fault Refusal :=
  unlessFatal s fun s =>
    let d := duration s.riseTs ts
    let y := classify s.cfg d
    handle y d s

end Sys2Proof.Machine
end

