-- ==== Sys2Proof/Machine/Symbols.lean ====
section
/-! DEFINITION. The symbol rows of the opcode table (format SYM): each handler of 42_protocol_fsm.md as an operation of its own (60 R173),
doing nothing while `fatal == 1` (10 R18). -/

namespace Sys2Proof.Machine

/-- `MSG_START` (42 R101). -/
def execMsgStart (s : State) : Host.Outcome State Fault Refusal := unlessFatal s handleMsgStart

/-- `FRAME_CONF` under PERMISSIVE (42 R102). -/
def execFrameConfP (s : State) : Host.Outcome State Fault Refusal := unlessFatal s handleFrameConfP

/-- `FRAME_CONF` under STRICT (42 R103). -/
def execFrameConfS (s : State) : Host.Outcome State Fault Refusal := unlessFatal s handleFrameConfS

/-- `FRAME_START` (42 R104). -/
def execFrameStart (s : State) : Host.Outcome State Fault Refusal := unlessFatal s handleFrameStart

/-- `BIT0` (42 R105). -/
def execBit0 (s : State) : Host.Outcome State Fault Refusal := unlessFatal s handleBit0

/-- `BIT1` (42 R106). -/
def execBit1 (s : State) : Host.Outcome State Fault Refusal := unlessFatal s handleBit1

/-- `INVALID` (42 R107). -/
def execInvalid (d : Ts) (s : State) : Host.Outcome State Fault Refusal := unlessFatal s (handleInvalid d)

end Sys2Proof.Machine
end

