-- ==== Sys2Proof/Machine/System.lean ====
section
/-! DEFINITION. The operations of the HOST and the FLUSHER, and the word that asks for nothing. -/

namespace Sys2Proof.Machine

/-- All eight cells of the accumulator at 0. -/
def zeroBits : Vector Bool 8 := #v[false, false, false, false, false, false, false, false]

/-- `RESET` (70 R180), line by line; `buf`, the histories and the straps are not written, characters still buffered are discarded by
`len <- 0`. -/
def execReset (s : State) : Host.Outcome State Fault Refusal :=
  let s := s.withRiseTs 0
  let s := (s.withPhase .idle).zeroCounters
  let s := s.withBits zeroBits
  let s := s.withLen 0
  .next (s.withFatal false)

/-- `FLUSH` (44 R142). -/
def execFlush (s : State) : Host.Outcome State Fault Refusal := (flusherFlush s).outcome

/-- No operation: no state changes (30 R61). -/
def execNop (s : State) : Host.Outcome State Fault Refusal := .next s

end Sys2Proof.Machine
end

