-- ==== Sys2Proof/Machine/Dispatch.lean ====
section
/-! DEFINITION. One arm per instruction. -/

namespace Sys2Proof.Machine

def exec (i : Instr) (s : State) : Host.Outcome State Fault Refusal :=
  match i with
  | .reset => Sys2Proof.Machine.execReset s
  | .edgeRise ts => Sys2Proof.Machine.execEdgeRise ts s
  | .edgeFall ts => Sys2Proof.Machine.execEdgeFall ts s
  | .flush => Sys2Proof.Machine.execFlush s
  | .nop => Sys2Proof.Machine.execNop s
  | .msgStart => Sys2Proof.Machine.execMsgStart s
  | .frameConfP => Sys2Proof.Machine.execFrameConfP s
  | .frameConfS => Sys2Proof.Machine.execFrameConfS s
  | .frameStart => Sys2Proof.Machine.execFrameStart s
  | .bit0 => Sys2Proof.Machine.execBit0 s
  | .bit1 => Sys2Proof.Machine.execBit1 s
  | .invalid d => Sys2Proof.Machine.execInvalid d s

end Sys2Proof.Machine
end

