-- ==== Sys2Proof/Machine/Issue.lean ====
section
/-! DEFINITION. What one stimulus makes the agents do: the operations of a word (30 R61), their precedence (60 R166), and the place of the
FLUSHER's steps (20 R47, 30 R71). -/

namespace Sys2Proof.Machine

/-- The word that asks for a FLUSH alone (30 R61). -/
def flushWord : OpWord := OpWord.make 0b0100 0

/-- The word that asks for the same edge without the flush request. -/
def withoutFlushReq (w : OpWord) : OpWord := OpWord.make (OpWord.ctl w &&& 0b1011) (OpWord.edgeTs w)

/-- Any number of Appends an operation cannot exceed (70 R190: at most four), so a FLUSH placed there falls after its last buffer step. -/
def afterLast : Nat := 5

/-- `FLUSH @(k+1)` (30 R71) added to the placements of an edge operation. -/
def placeFlush : Nat → List Bool → List Bool
  | 0, [] => [true]
  | 0, _ :: rest => true :: rest
  | k + 1, [] => false :: placeFlush k []
  | k + 1, b :: rest => b :: placeFlush k rest

/-- The end of an operation that had placements: a FLUSH whose place the operation did not reach falls after its last buffer step, so
its request is what the ports present next (DESIGN CHOICE, log entry 26). -/
def settle (o : Host.Outcome State Fault Refusal) : Host.Outcome State Fault Refusal :=
  match o with
  | .next s =>
    if s.slots.any (fun b => b) then .next ((s.withInputs (.word flushWord 0 [] :: s.inputs)).withSlots [])
    else .next (s.withSlots [])
  | .fault e => .fault e
  | .refused r => .refused r

/-- An operation of the HANDLER with FLUSH steps of the FLUSHER placed inside it (20 R47). -/
def runPlaced (i : Instr) (slots : List Bool) (s : State) : Host.Outcome State Fault Refusal := settle (exec i (s.withSlots slots))

/-- An operation with no placement. -/
def runPlain (i : Instr) (s : State) : Host.Outcome State Fault Refusal := runPlaced i [] s

/-- One operation word (30 R61). An edge and a flush request are two steps of two agents in the arbiter's order (60 R166 (3)). -/
def issueWord (w : OpWord) (grant : Nat) (slots : List Bool) (s : State) : Host.Outcome State Fault Refusal :=
  if OpWord.alsoFlush w then
    match grant with
    | 0 => runPlain .flush (s.withInputs (.word (withoutFlushReq w) 0 slots :: s.inputs))
    | k + 1 => runPlaced (decodeOp w) (placeFlush k slots) s
  else if OpWord.edgeValid w && !OpWord.rst w then runPlaced (decodeOp w) slots s
  else runPlain (decodeOp w) s


/-- One symbol with its duration (42 R100), at the component-level entry (DESIGN CHOICE, log entry 7). The duration is not checked against the
symbol's window, except for INVALID (log entry 12): the symbol decides, so a BIT1 is run under a preset whose classifier never returns it
(DESIGN CHOICE, log entry 28). -/
def issueSymbol (code : BitVec 3) (d : Ts) (slots : List Bool) (s : State) : Host.Outcome State Fault Refusal :=
  match decodeSym (BitVec.ofBool s.cfg.strictness.strap ++ code) d with
  | .ok i => if i.wf s.cfg then runPlaced i slots s else .refused .illFormed
  | .error _ => .refused .noSuchSymbol

/-- What the next stimulus makes the core do; `s.inputs` holds the stimuli after it. -/
def issue (st : Stimulus) (s : State) : Host.Outcome State Fault Refusal :=
  match st with
  | .word w grant slots => issueWord w grant slots s
  | .symbol code d slots => issueSymbol code d slots s

/-- One step: refuse an illegal configuration (00 R4); take the next stimulus; with none presented the ports ask for nothing, which is
the word of no operation (30 R61; DESIGN CHOICE, log entry 13). -/
def nextStep (s : State) : Host.Outcome State Fault Refusal :=
  if s.cfg.legal then
    match s.inputs with
    | [] => runPlain .nop s
    | st :: rest => issue st (s.withInputs rest)
  else .refused .illegalConfig

/-- The stimulus and strap under which the next step runs exactly the instruction of an opcode-table word: a word of format OP as presented at
the ports, its own flush request (if it has one beside an edge) after the edge operation; a dispatch value of format SYM at the handler,
its bit 3 on the strap `cfg_strict`. Bits beyond the format change nothing. -/
def presentTableWord (s : State) (nbits w : Nat) : State :=
  match codeOfTableWord nbits w with
  | .ok (.op v) => s.withInputs (.word v afterLast [] :: s.inputs)
  | .ok (.sym v d) =>
    (s.withCfg { s.cfg with strictness := Strictness.ofStrap (v.getLsbD 3) }).withInputs
      (.symbol (v.extractLsb' 0 3) d [] :: s.inputs)
  | .error _ => s

end Sys2Proof.Machine
end

