-- ==== Sys2Proof/Machine/Step.lean ====
section
/-! DEFINITION. The step function and the placing of one instruction for the next step; both only call Machine/Issue.lean. -/

namespace Sys2Proof.Machine

/-- One step of the machine: one operation of one agent (00 section 5), with the FLUSH steps the arbiter places inside it. -/
def step (s : State) : Host.Outcome State Fault Refusal := nextStep s

/-- The state whose next step runs the instruction of an opcode-table word. -/
def State.withFetchWord (s : State) (nbits w : Nat) : State := presentTableWord s nbits w

end Sys2Proof.Machine
end

