-- ==== Sys2Proof/Machine/Ports.lean ====
section
/-! DEFINITION. The output pins (30 R73), derived from the histories; no rule of the core reads them. -/

namespace Sys2Proof.Machine

/-- One transfer of the sink port: `snk_data` and `snk_last`, with `snk_valid == 1` (30 R73). -/
structure SinkTransfer where
  data : Byte
  last : Bool
  deriving DecidableEq, Repr

/-- One transfer of the error channel: `warn_code` and `warn_info`, with `warn_valid == 1` (30 R73). -/
structure WarnTransfer where
  code : BitVec 2
  info : Ts
  deriving DecidableEq, Repr

/-- One burst as consecutive transfers, `snk_last == 1` on the final one only (30 R73). -/
def burstTransfers : Text → List SinkTransfer
  | [] => []
  | [c] => [⟨c, true⟩]
  | c :: d :: t => ⟨c, false⟩ :: burstTransfers (d :: t)

/-- One warning record as one transfer (30 R73). -/
def warnTransfer (w : Warning) : WarnTransfer := ⟨warnCodeBits w.code, w.info⟩

/-- All transfers of the sink port so far. -/
def State.sinkTransfers (s : State) : List SinkTransfer := s.sink.flatMap burstTransfers

/-- All transfers of the error channel so far. -/
def State.warnTransfers (s : State) : List WarnTransfer := s.err.map warnTransfer

end Sys2Proof.Machine
end

