-- ==== Sys2Proof/Machine/TraceNotation.lean ====
section
/-! DEFINITION. The trace notation, this spec's "assembly language" (30 R71, R72): the lines and the stimuli they stand for. -/

namespace Sys2Proof.Machine

/-- A line of the notation: base mnemonics (30 R71) and pseudo-operations (30 R72). -/
inductive Line
  | reset
  | rise (t : Ts)
  | fall (t : Ts)
  | flush
  | flushAt (k : Nat)
  | setTime (t : Ts)
  | pulse (d : Ts)
  | mstart
  | fconf
  | fstart
  | b0
  | b1
  | bad
  | byte (v : Byte)
  | repeatLines (n : Nat) (body : List Line)
  deriving Repr

/-- The assembler's variables: the time `T` (30 R72), the `FLUSH @k` lines waiting for the edge operation they interrupt, and the stimuli so
far. -/
structure Assembly where
  time : Ts
  waiting : List Bool
  out : List Stimulus
  deriving DecidableEq, Repr

/-- `GAP = 500` (30 R72). -/
def gap : Ts := 500

/-- One operation word with no placement. A waiting `FLUSH @k` stays waiting past it, a RESET or FLUSH line included (DESIGN CHOICE, log
entry 27). -/
def Assembly.word (a : Assembly) (w : OpWord) : Assembly := { a with out := a.out ++ [.word w afterLast []] }

/-- `RISE t` makes no Append, so a waiting `FLUSH @k` stays for the falling edge (DESIGN CHOICE, log entry 27). -/
def Assembly.rise (a : Assembly) (t : Ts) : Assembly := a.word (OpWord.make 0b0011 t)

/-- `FALL t`, with the `FLUSH @k` lines that stand before it. -/
def Assembly.fall (a : Assembly) (t : Ts) : Assembly :=
  { a with waiting := [], out := a.out ++ [.word (OpWord.make 0b0010 t) afterLast a.waiting] }

/-- `PULSE d` (30 R72). -/
def Assembly.pulse (a : Assembly) (d : Ts) : Assembly :=
  { (a.rise a.time).fall (a.time + d) with time := a.time + d + gap }

/-- A bit as a pulse: `B1` or `B0` (30 R72). -/
def Assembly.bitPulse (a : Assembly) (b : Bool) : Assembly := a.pulse (if b then 1200 else 400)

/-- The bits of a byte, least significant first. -/
def byteBits (v : Byte) : List Bool := [0, 1, 2, 3, 4, 5, 6, 7].map fun i => v.getLsbD i

/-- The order in which `BYTE v` submits the bits of `v` (30 R72): the one that makes the assembled byte equal `v`. -/
def submissionOrder (o : BitOrder) (v : Byte) : List Bool :=
  match o with
  | .lastIsMsb => byteBits v
  | .firstIsMsb => (byteBits v).reverse

/-- `BYTE v` (30 R72). -/
def Assembly.bytePulses (o : BitOrder) (a : Assembly) (v : Byte) : Assembly := (submissionOrder o v).foldl Assembly.bitPulse a

/-- `f` applied `n` times. -/
def repeatTimes (f : Assembly → Assembly) : Nat → Assembly → Assembly
  | 0, a => a
  | n + 1, a => repeatTimes f n (f a)

mutual
/-- One line (30 R71, R72). R71 has `FLUSH @k` with `k >= 1` only; `k = 0` is read as 1 (DESIGN CHOICE, log entry 27). -/
def asmLine (o : BitOrder) (l : Line) (a : Assembly) : Assembly :=
  match l with
  | .reset => a.word (OpWord.make 0b1000 0)
  | .rise t => a.rise t
  | .fall t => a.fall t
  | .flush => a.word flushWord
  | .flushAt k => { a with waiting := placeFlush (k - 1) a.waiting }
  | .setTime t => { a with time := t }
  | .pulse d => a.pulse d
  | .mstart => a.pulse 25000
  | .fconf => a.pulse 1600
  | .fstart => a.pulse 35000
  | .b0 => a.bitPulse false
  | .b1 => a.bitPulse true
  | .bad => a.pulse 5000
  | .byte v => a.bytePulses o v
  | .repeatLines n body => repeatTimes (asmLines o body) n a
/-- Lines in order. -/
def asmLines (o : BitOrder) (ls : List Line) (a : Assembly) : Assembly :=
  match ls with
  | [] => a
  | l :: rest => asmLines o rest (asmLine o l a)
end

/-- The stimuli of a program, `T` initially 0 (30 R72). A `FLUSH @k` still waiting at the end of the program, with no falling edge after it, is
dropped (DESIGN CHOICE, log entry 27: 30 R71 does not say what such a line means). -/
def assembleProgram (o : BitOrder) (ls : List Line) : List Stimulus := (asmLines o ls ⟨0, [], []⟩).out

end Sys2Proof.Machine
end

