-- ==== Sys2Proof/Safety.lean ====
section
/-! DEFINITION. The terms claims use: the invariant of 10 R22, the states a run reaches, the text the core has shown (20 R48), the fragments an
operation hands to `Append`, the bursts they make, and the cells it stores to. -/

namespace Sys2Proof.Machine

/-- The invariant: 10 R22 (a) to (f), the canonical form of the memory, a legal configuration (00 R4), and what the records of the error
channel hold (60 R161, R162). Clause (c) of R22 is the type of `phase`. -/
structure State.Inv (s : State) : Prop where
  legal : s.cfg.legal = true
  bitCountLive : s.fatal = false → s.bitCount.toNat ≤ 7
  bitCountMax : s.bitCount.toNat ≤ 8
  lenMax : s.len ≤ s.cfg.cap
  phasePermissive : s.cfg.strictness = .permissive → s.phase ≠ .preConf
  bursts : ∀ b ∈ s.sink, b ≠ [] ∧ b.length ≤ s.cfg.cap
  fatalEmpty : s.fatal = true → s.len = 0
  memWf : Memory.wf s.mem
  memRange : ∀ c ∈ s.mem, c.1 < s.cfg.cap
  incompleteInfo : ∀ w ∈ s.err, w.code = .incomplete → 1 ≤ w.info.toNat ∧ w.info.toNat ≤ 7
  decodeInfo : ∀ w ∈ s.err, w.code = .decode → classify s.cfg w.info = .invalid

/-- A state of some run: from what RESET leaves under a legal configuration (93 U1), whatever is presented. -/
inductive Reachable : State → Prop
  | start (c : Cfg) (presented : List Stimulus) (h : c.legal = true) : Reachable ((State.resetWith c).withInputs presented)
  | next {s t : State} (hs : Reachable s) (h : step s = .next t) : Reachable t

/-- What is in the buffer: `MemRead(0, len)`. -/
def State.bufText (s : State) : Text := s.mem.readSpan 0 s.len

/-- `concat(sink) ++ MemRead(0, len)` (20 R48). -/
def State.shown (s : State) : Text := s.sink.flatten ++ s.bufText

/-- The output buffer seen as texts: the bursts written and the text that waits (10 R17, R21). -/
structure Output where
  sink : List Text
  waiting : Text
  deriving DecidableEq, Repr

/-- The bursts so far and `MemRead(0, len)`. -/
def State.output (s : State) : Output := ⟨s.sink, s.bufText⟩

/-- A flush: the whole waiting text becomes one burst; nothing when none waits (44 R141). -/
def Output.flush (o : Output) : Output := if o.waiting = [] then o else ⟨o.sink ++ [o.waiting], []⟩

/-- A text of at most `cap` characters joins the waiting text whole; where the two do not fit together the waiting text is flushed first, whole
(20 R43, 44 R140, R144). -/
def Output.append (cap : Nat) (t : Text) (o : Output) : Output :=
  if o.waiting.length + t.length ≤ cap then ⟨o.sink, o.waiting ++ t⟩ else ⟨o.flush.sink, t⟩

/-- Texts handed over in order, with a FLUSH after the k-th where the k-th placement says so (20 R47); an oversized text flushes what waits and
ends it (44 R143). -/
def Output.run (cap : Nat) : List Text → List Bool → Output → Output
  | [], _, o => o
  | t :: ts, ps, o =>
    if t.length ≤ cap then Output.run cap ts ps.tail (if ps.head? = some true then (o.append cap t).flush else o.append cap t)
    else o.flush

/-- The flush an operation performs at its end, or none. -/
def Output.finish (o : Output) (flushes : Bool) : Output := if flushes then o.flush else o

/-- What `Flush()` makes of the state (44 R141): one burst with the buffer's text and the cursor at 0, or nothing when the buffer is empty. -/
def State.flushed (s : State) : State := if 0 < s.len then (s.withSink (s.sink ++ [s.bufText])).withLen 0 else s

/-- The buffer's part of the invariant (10 R22 (b), (e)). -/
structure BufInv (s : State) : Prop where
  lenMax : s.len ≤ s.cfg.cap
  bursts : ∀ b ∈ s.sink, b ≠ [] ∧ b.length ≤ s.cfg.cap
  memWf : Memory.wf s.mem
  memRange : ∀ c ∈ s.mem, c.1 < s.cfg.cap

/-- Every register but those of the output buffer (10 R10), the straps, the error channel and the pending stimuli are the same. -/
structure SameRegs (s t : State) : Prop where
  riseTs : t.riseTs = s.riseTs
  phase : t.phase = s.phase
  frameIndex : t.frameIndex = s.frameIndex
  framePos : t.framePos = s.framePos
  bitCount : t.bitCount = s.bitCount
  bits : t.bits = s.bits
  cfg : t.cfg = s.cfg
  err : t.err = s.err
  inputs : t.inputs = s.inputs

/-- A fragment that `Append` does not find oversized (44 R143). -/
def fits (c : Cfg) (f : Fragment) : Bool := decide ((fragmentText c f).length ≤ c.cap)

/-- The fragments a configuration can produce (42 R101 to R109, 43 R132, R133): no confirmation under PERMISSIVE, no bit or separator in Compact
mode, no hex pair in Trace mode, and no frame label 0, since the label is the index after the increment (42 R104). -/
def producible (c : Cfg) : Fragment → Bool
  | .msg => true
  | .conf => decide (c.strictness = .strict)
  | .frame n => decide (n ≠ 0)
  | .bit _ => decide (c.verbosity = .trace)
  | .byteSep => decide (c.verbosity = .trace)
  | .hex _ => decide (c.verbosity = .compact)
  | .frameDone => true
  | .seqDone => true

/-- The byte being completed is byte 19 of frame 2, which ends the sequence (42 R109). -/
abbrev seqCompletes (s : State) : Prop := s.frameIndex = 2 ∧ satinc s.framePos = 19

/-- The submitted bit completes byte 19 of frame 2, so the policy flushes after its markers (42 R109). -/
abbrev endsSequence (s : State) : Prop := s.bitCount = 7 ∧ seqCompletes s

/-- The operations that perform a `Flush` of their own at their end (20 R50 (b), (c)): FLUSH, and the bit that ends the sequence. -/
def flushesAtEnd (i : Instr) (s : State) : Bool :=
  !s.fatal &&
  match i with
  | .reset => false
  | .edgeRise _ => false
  | .edgeFall ts =>
    decide ((classify s.cfg (duration s.riseTs ts) = .bit0 ∨ classify s.cfg (duration s.riseTs ts) = .bit1) ∧ endsSequence s)
  | .flush => true
  | .nop => false
  | .msgStart => false
  | .frameConfP => false
  | .frameConfS => false
  | .frameStart => false
  | .bit0 => decide (endsSequence s)
  | .bit1 => decide (endsSequence s)
  | .invalid _ => false

/-- The markers of the frame-completion policy for the byte being completed (42 R109). -/
def completionFragments (s : State) : List Fragment :=
  if (s.frameIndex = 0 ∨ s.frameIndex = 1) ∧ satinc s.framePos = 8 then [.frameDone]
  else if seqCompletes s then [.frameDone, .seqDone]
  else []

/-- The fragments of one submitted bit, in the order of 43 R130 and R134. -/
def bitFragments (b : Bool) (s : State) : List Fragment :=
  (match s.cfg.verbosity with
    | .compact => []
    | .trace => [.bit b]) ++
  if s.bitCount = 7 then byteFragment (s.withBits (s.bits.set 7 b)) :: completionFragments s else []

/-- The fragments of one symbol (42 R101 to R107). -/
def symbolFragments (y : Symbol) (s : State) : List Fragment :=
  match y with
  | .msgStart => [.msg]
  | .frameConf => if s.cfg.strictness = .permissive ∨ s.phase = .idle then [] else [.conf]
  | .frameStart => [.frame (satinc s.frameIndex)]
  | .bit0 => bitFragments false s
  | .bit1 => bitFragments true s
  | .invalid => []

/-- The fragments an operation hands to `Append`, in order; none while `fatal == 1` (60 R163). -/
def fragmentsOf (i : Instr) (s : State) : List Fragment :=
  if s.fatal then [] else
  match i with
  | .reset => []
  | .edgeRise _ => []
  | .edgeFall ts => symbolFragments (classify s.cfg (duration s.riseTs ts)) s
  | .flush => []
  | .nop => []
  | .msgStart => [.msg]
  | .frameConfP => []
  | .frameConfS => if s.phase = .idle then [] else [.conf]
  | .frameStart => [.frame (satinc s.frameIndex)]
  | .bit0 => bitFragments false s
  | .bit1 => bitFragments true s
  | .invalid _ => []

/-- The bursts and the waiting text after an operation other than RESET: its fragments handed over in order, with the FLUSH steps placed among
them, then the operation's own flush if it has one. -/
def outputAfter (i : Instr) (s : State) : Output :=
  (s.output.run s.cfg.cap ((fragmentsOf i s).map (fragmentText s.cfg)) s.slots).finish (flushesAtEnd i s)

/-- The warnings an operation raises (60 R161, R162). -/
def symbolWarnings (y : Symbol) (d : Ts) (s : State) : List Warning :=
  match y with
  | .msgStart => if s.bitCount = 0 then [] else [⟨.incomplete, s.bitCount.zeroExtend 32⟩]
  | .frameConf => []
  | .frameStart => if s.bitCount = 0 then [] else [⟨.incomplete, s.bitCount.zeroExtend 32⟩]
  | .bit0 => []
  | .bit1 => []
  | .invalid => if s.phase = .inMsg then [⟨.decode, d⟩] else []

/-- The warnings an operation raises; none while `fatal == 1` (60 R163). -/
def warningsOf (i : Instr) (s : State) : List Warning :=
  if s.fatal then [] else
  match i with
  | .reset => []
  | .edgeRise _ => []
  | .edgeFall ts => symbolWarnings (classify s.cfg (duration s.riseTs ts)) (duration s.riseTs ts) s
  | .flush => []
  | .nop => []
  | .msgStart => symbolWarnings .msgStart 0 s
  | .frameConfP => []
  | .frameConfS => []
  | .frameStart => symbolWarnings .frameStart 0 s
  | .bit0 => []
  | .bit1 => []
  | .invalid d => symbolWarnings .invalid d s

/-- The transition table of 42 R112, by strictness, current phase, symbol, and whether the bit completes byte 19 of frame 2. -/
def tablePhase (σ : Strictness) (p : Phase) (y : Symbol) (sequenceDone : Bool) : Phase :=
  match y with
  | .msgStart => if σ = .permissive then .inMsg else .preConf
  | .frameConf => if σ = .permissive then p else if p = .idle then .idle else .inMsg
  | .frameStart => p
  | .bit0 => if sequenceDone then .idle else p
  | .bit1 => if sequenceDone then .idle else p
  | .invalid => .idle

/-- The spans (first index, length) of `buf` that Appends of these fragments, one after the other from `s`, store to: each at the index
`appendAddr` gives in the state that Append finds. An oversized fragment stores nothing and ends the list (44 R143). -/
def spans : List Fragment → State → List (Nat × Nat)
  | [], _ => []
  | f :: fs, s =>
    match emit f s with
    | .done t => (appendAddr (fragmentText s.cfg f) s, (fragmentText s.cfg f).length) :: spans fs t
    | .halted _ => []
    | .fault _ => []

/-- An index of `buf` in none of the spans. -/
def outside (a : Nat) (ps : List (Nat × Nat)) : Prop := ∀ p ∈ ps, ¬(p.1 ≤ a ∧ a < p.1 + p.2)

/-- The buffer side of an operation that hands the fragments `fs` to `Append` in order, from `s` to `t`: the shown text grows by the
fragments up to the first oversized one, `fatal` says whether there was one, every cell outside the stored spans reads as before, and
bursts are only added to the sink. -/
structure Appended (fs : List Fragment) (s t : State) : Prop where
  text : t.shown = s.shown ++ (fs.takeWhile (fits s.cfg)).flatMap (fragmentText s.cfg)
  fatal : t.fatal = !(fs.all (fits s.cfg))
  cells : ∀ a, outside a (spans fs s) → t.mem.read a = s.mem.read a
  sink : s.sink <+: t.sink

end Sys2Proof.Machine
end

