-- ==== Sys2Proof/Certificates/Slice0/Obligations.lean ====
section
/-! DEFINITION. The statements for the provers, from the numbered rules of spec/. `State.Inv` (Safety.lean) is the invariant of 10 R22; it rules out
states no run reaches and is stated as an invariant itself below. -/

open Sys2Proof Sys2Proof.Machine

/-! ### The invariant -/

/-- 10 R22, 93 U1: what RESET leaves under a legal configuration meets the invariant, whatever is presented. -/
def Obligations.ResetStateMeetsInvariant : Prop :=
  ∀ (c : Cfg) (presented : List Stimulus), c.legal = true → ((State.resetWith c).withInputs presented).Inv

/-- 10 R22: every step keeps the invariant, from every state that meets it. -/
def Obligations.StepKeepsInvariant : Prop :=
  ∀ s t : State, s.Inv → step s = .next t → t.Inv

/-- 10 R22 (a) to (f), of every state of every run. -/
def Obligations.RunStatesMeetRegisterInvariants : Prop :=
  ∀ s : State, Reachable s →
    (s.fatal = false → s.bitCount.toNat ≤ 7) ∧
    s.len ≤ s.cfg.cap ∧
    (s.phase = .idle ∨ s.phase = .preConf ∨ s.phase = .inMsg) ∧
    (s.cfg.strictness = .permissive → s.phase ≠ .preConf) ∧
    (∀ b ∈ s.sink, b ≠ [] ∧ b.length ≤ s.cfg.cap) ∧
    (s.fatal = true → s.len = 0)

/-- 20 R41, 43 R130: no access outside `buf` or the accumulator in any state that meets the invariant. -/
def Obligations.StepNeverFaults : Prop :=
  ∀ (s : State) (f : Fault), s.Inv → step s ≠ .fault f

/-- 30 R69 (a), 60 R165: every operation word completes, and so does a step with nothing presented. -/
def Obligations.EveryPresentedWordCompletes : Prop :=
  ∀ s : State, s.Inv →
    (s.inputs = [] → step s = .next (s.withSlots [])) ∧
    ∀ (w : OpWord) (grant : Nat) (slots : List Bool) (rest : List Stimulus),
      s.inputs = .word w grant slots :: rest → ∃ t, step s = .next t

/-! ### Encodings -/

/-- 30 R60 to R62: decoding inverts encoding, for every instruction with every operand; and the strap bit of a dispatch value is the
configuration's for every well-formed instruction. -/
def Obligations.DecodeInvertsEncode : Prop :=
  (∀ (σ : Strictness) (i : Instr), decode (encode σ i) = .ok i) ∧
  ∀ (c : Cfg) (i : Instr) (v : BitVec 4) (d : Ts), i.wf c = true → encode c.strictness i = .sym v d → v.getLsbD 3 = c.strictness.strap

/-- 30 R61, R62: a dispatch value that decodes is the dispatch value of the encoding of what it decodes to (a duration comes back for INVALID
only); an operation word decodes like the canonical word of what it decodes to, which ignores what 30 R69 (d) ignores and, for
`ctl = 011x`, leaves out the flush request. -/
def Obligations.DispatchValueIsItsEncodingAndWordDecodesLikeItsCanonicalWord : Prop :=
  (∀ (v : BitVec 4) (d : Ts) (i : Instr), decodeSym v d = .ok i →
    ∃ e, encode (Strictness.ofStrap (v.getLsbD 3)) i = .sym v e ∧ (i = .invalid d → e = d)) ∧
  ∀ (σ : Strictness) (w : OpWord), ∃ v, encode σ (decodeOp w) = .op v ∧ decodeOp v = decodeOp w

/-- 30 R61: the operations a word performs are those whose row matches its control field. -/
def Obligations.OperationWordRowsSelectOperations : Prop :=
  ∀ w : OpWord,
    (Instr.reset ∈ opsOf w ↔ OpWord.ctl w &&& 0b1000 = 0b1000) ∧
    (∀ ts, Instr.edgeRise ts ∈ opsOf w ↔ OpWord.ctl w &&& 0b1011 = 0b0011 ∧ ts = OpWord.edgeTs w) ∧
    (∀ ts, Instr.edgeFall ts ∈ opsOf w ↔ OpWord.ctl w &&& 0b1011 = 0b0010 ∧ ts = OpWord.edgeTs w) ∧
    (Instr.flush ∈ opsOf w ↔ OpWord.ctl w &&& 0b1100 = 0b0100) ∧
    (Instr.nop ∈ opsOf w ↔ OpWord.ctl w &&& 0b1110 = 0b0000)

/-- 30 R62, R69 (b): the handler a dispatch value selects, by the masks of the opcode table; codes 6 and 7 select none. -/
def Obligations.DispatchValueRowsSelectHandlers : Prop :=
  ∀ (v : BitVec 4) (d : Ts),
    (decodeSym v d = .ok .msgStart ↔ v &&& 0x7 = 0x0) ∧
    (decodeSym v d = .ok .frameConfP ↔ v &&& 0xF = 0x1) ∧
    (decodeSym v d = .ok .frameConfS ↔ v &&& 0xF = 0x9) ∧
    (decodeSym v d = .ok .frameStart ↔ v &&& 0x7 = 0x2) ∧
    (decodeSym v d = .ok .bit0 ↔ v &&& 0x7 = 0x3) ∧
    (decodeSym v d = .ok .bit1 ↔ v &&& 0x7 = 0x4) ∧
    (∀ e, decodeSym v d = .ok (.invalid e) ↔ v &&& 0x7 = 0x5 ∧ e = d) ∧
    (decodeSym v d = .error .noSuchSymbol ↔ v &&& 0x7 = 0x6 ∨ v &&& 0x7 = 0x7)

/-- Words written out from 30 R60 to R62 decode to the operations they stand for. -/
def Obligations.WrittenOutWordsDecode : Prop :=
  decodeTableWord 40 0b100000000000000000000000000000000000 = some .reset ∧
  decodeTableWord 40 0b001100000000000000000000000001100100 = some (.edgeRise 100) ∧
  decodeTableWord 40 0b001000000000000000000000000111110100 = some (.edgeFall 500) ∧
  decodeTableWord 40 0b010000000000000000000000000000000000 = some .flush ∧
  decodeTableWord 8 0b1001 = some .frameConfS ∧
  decodeTableWord 8 0b0100 = some .bit1

/-! ### The step -/

/-- 30 R61: a step runs the instruction of the word presented, with the FLUSH steps placed inside it; words with `ctl = 011x` are the subject of
EdgeWithFlushRunsBothInEitherOrder. That a step with nothing presented is NOP is the model's choice (DESIGN CHOICE, log entry 13), and so
is the clause on a symbol presented to `Handle` directly (DESIGN CHOICE, log entry 7; 42 R100, 60 R173). -/
def Obligations.StepRunsPresentedInstruction : Prop :=
  ∀ s : State, s.cfg.legal = true →
    (s.inputs = [] → step s = exec .nop (s.withSlots [])) ∧
    (∀ (w : OpWord) (grant : Nat) (slots : List Bool) (rest : List Stimulus), s.inputs = .word w grant slots :: rest →
      OpWord.alsoFlush w = false →
      step s = settle (exec (decodeOp w)
        ((s.withInputs rest).withSlots (if OpWord.edgeValid w && !OpWord.rst w then slots else [])))) ∧
    ∀ (code : BitVec 3) (d : Ts) (slots : List Bool) (rest : List Stimulus) (i : Instr), s.inputs = .symbol code d slots :: rest →
      decodeSym (BitVec.ofBool s.cfg.strictness.strap ++ code) d = .ok i → i.wf s.cfg = true →
      step s = settle (exec i ((s.withInputs rest).withSlots slots))

/-- The same where no FLUSH is placed inside the operation: the step is exec of the instruction, nothing added. The clause on a symbol presented
to `Handle` directly is the model's choice (DESIGN CHOICE, log entry 7; 42 R100, 60 R173). -/
def Obligations.StepWithoutPlacementIsExec : Prop :=
  ∀ s : State, s.Inv →
    (∀ (w : OpWord) (grant : Nat) (rest : List Stimulus), s.inputs = .word w grant [] :: rest → OpWord.alsoFlush w = false →
      step s = exec (decodeOp w) ((s.withInputs rest).withSlots [])) ∧
    ∀ (code : BitVec 3) (d : Ts) (rest : List Stimulus) (i : Instr), s.inputs = .symbol code d [] :: rest →
      decodeSym (BitVec.ofBool s.cfg.strictness.strap ++ code) d = .ok i → i.wf s.cfg = true →
      step s = exec i ((s.withInputs rest).withSlots [])

/-- 60 R166 (3), 20 R47: a word with an edge and a flush request performs both, as two steps, in either order; and with its FLUSH placed after
the k-th Append it runs the edge operation with that placement beside the others. The order as data is log entry 6. -/
def Obligations.EdgeWithFlushRunsBothInEitherOrder : Prop :=
  ∀ (s : State) (w : OpWord) (rest : List Stimulus), s.Inv → OpWord.alsoFlush w = true →
    (∀ slots, s.inputs = .word w 0 slots :: rest → ∃ t,
      exec .flush ((s.withInputs rest).withSlots []) = .next t ∧
      step s = .next (t.withInputs (.word (withoutFlushReq w) 0 slots :: rest)) ∧
      step (t.withInputs (.word (withoutFlushReq w) 0 slots :: rest)) = settle (exec (decodeOp w) (t.withSlots slots))) ∧
    (s.inputs = .word w afterLast [] :: rest → ∃ t,
      exec (decodeOp w) ((s.withInputs rest).withSlots []) = .next t ∧
      step s = .next (t.withInputs (.word flushWord 0 [] :: rest)) ∧
      step (t.withInputs (.word flushWord 0 [] :: rest)) = exec .flush t) ∧
    ∀ (k : Nat) (slots : List Bool), s.inputs = .word w (k + 1) slots :: rest →
      step s = settle (exec (decodeOp w) ((s.withInputs rest).withSlots (placeFlush k slots)))

/-- 00 R4: a configuration with `CAP = 0` is refused. -/
def Obligations.IllegalConfigurationIsRefused : Prop :=
  ∀ s : State, s.cfg.cap = 0 → step s = .refused .illegalConfig

/-! ### The port operations -/

/-- 70 R180: everything `RESET` writes, and nothing else; whatever else is presented with it is discarded; only it clears `fatal`. That the cells
of `buf` stay is the model's choice (log entries 4, DESIGN CHOICE, and 25, DEDUCED): 10 R17 leaves them unspecified. -/
def Obligations.ResetResult : Prop :=
  (∀ s : State, exec .reset s = .next { s with
    riseTs := 0, phase := .idle, frameIndex := 0, framePos := 0, bitCount := 0,
    bits := #v[false, false, false, false, false, false, false, false], len := 0, fatal := false }) ∧
  (∀ (s : State) (w : OpWord) (grant : Nat) (slots : List Bool) (rest : List Stimulus), s.cfg.legal = true →
    s.inputs = .word w grant slots :: rest → OpWord.rst w = true → step s = exec .reset ((s.withInputs rest).withSlots [])) ∧
  ∀ (i : Instr) (s t : State), s.fatal = true → exec i s = .next t → t.fatal = false → i = .reset

/-- 40 R80. -/
def Obligations.EdgeRiseResult : Prop :=
  ∀ (ts : Ts) (s : State),
    (s.fatal = false → exec (.edgeRise ts) s = .next { s with riseTs := ts }) ∧
    (s.fatal = true → exec (.edgeRise ts) s = .next s)

/-- 40 R81, 42 R100: `EDGE_FALL` is the handler of the symbol its duration classifies as, and exactly that. -/
def Obligations.EdgeFallRunsTheHandlerOfItsSymbol : Prop :=
  ∀ (ts : Ts) (s : State), exec (.edgeFall ts) s =
    exec (symInstr s.cfg.strictness (classify s.cfg (duration s.riseTs ts)) (duration s.riseTs ts)) s

/-- 40 R81: `EDGE_FALL` always completes; it does not write `rise_ts`, and it adds to the buffer and the error channel what its symbol does. -/
def Obligations.EdgeFallCompletes : Prop :=
  ∀ (ts : Ts) (s : State), s.Inv → s.fatal = false → ∃ t, exec (.edgeFall ts) s = .next t ∧
    t.riseTs = s.riseTs ∧ t.cfg = s.cfg ∧ t.inputs = s.inputs ∧
    t.err = s.err ++ symbolWarnings (classify s.cfg (duration s.riseTs ts)) (duration s.riseTs ts) s ∧
    Appended (symbolFragments (classify s.cfg (duration s.riseTs ts)) s) s t

/-- 44 R141, R142: `FLUSH` hands the whole buffer to the sink as one burst and empties it; nothing while empty or fatal. -/
def Obligations.FlushResult : Prop :=
  ∀ s : State, s.Inv →
    exec .flush s = .next (if s.fatal = true ∨ s.len = 0 then s
      else { s with sink := s.sink ++ [s.mem.readSpan 0 s.len], len := 0 })

/-- 42 R102 and the row of no operation of 30 R61: nothing changes. -/
def Obligations.PermissiveConfirmationAndNopChangeNothing : Prop :=
  ∀ s : State, exec .frameConfP s = .next s ∧ exec .nop s = .next s

/-- 40 R86, 44 R142, 10 R18, 60 R163: while `fatal == 1` no operation but `RESET` changes anything. That a symbol row performed on its own does
nothing either is log entry 11 (DEDUCED). -/
def Obligations.FatalStopsEverythingButReset : Prop :=
  ∀ (i : Instr) (s : State), s.fatal = true → i ≠ .reset → exec i s = .next s

/-- 40 R84: a falling edge with no rising edge since reset is measured against 0 and handled like any other. -/
def Obligations.FirstFallIsMeasuredAgainstZero : Prop :=
  ∀ (c : Cfg) (presented : List Stimulus) (ts : Ts),
    exec (.edgeFall ts) ((State.resetWith c).withInputs presented) =
      exec (symInstr c.strictness (classify c ts) ts) ((State.resetWith c).withInputs presented)

/-- 40 R85: of two rising edges the later one counts, and a falling edge leaves the reference for the next falling edge. -/
def Obligations.RepeatedEdgesUseTheLastRise : Prop :=
  ∀ (a b : Ts) (s t : State), s.Inv → s.fatal = false →
    (exec (.edgeRise a) s = .next t → exec (.edgeRise b) t = exec (.edgeRise b) s) ∧
    (exec (.edgeFall a) s = .next t → t.fatal = false → exec (.edgeFall b) t =
      exec (symInstr t.cfg.strictness (classify t.cfg (duration s.riseTs b)) (duration s.riseTs b)) t)

/-! ### The symbol handlers -/

/-- 42 R101: counters zeroed, phase by strictness, a discarded partial byte warned of, the marker handed to the buffer. -/
def Obligations.MsgStartResult : Prop :=
  ∀ s : State, s.Inv → s.fatal = false → ∃ t, exec .msgStart s = .next t ∧
    t.phase = (if s.cfg.strictness = .permissive then .inMsg else .preConf) ∧
    t.frameIndex = 0 ∧ t.framePos = 0 ∧ t.bitCount = 0 ∧
    t.err = s.err ++ (if s.bitCount = 0 then [] else [⟨.incomplete, s.bitCount.zeroExtend 32⟩]) ∧
    Appended [.msg] s t ∧
    t.riseTs = s.riseTs ∧ t.bits = s.bits ∧ t.cfg = s.cfg ∧ t.inputs = s.inputs

/-- 42 R103: counters zeroed in both cases; confirmed when a MessageStart was seen, silent when not; no warning. -/
def Obligations.StrictConfirmationResult : Prop :=
  ∀ s : State, s.Inv → s.fatal = false → ∃ t, exec .frameConfS s = .next t ∧
    t.phase = (if s.phase = .idle then .idle else .inMsg) ∧
    t.frameIndex = 0 ∧ t.framePos = 0 ∧ t.bitCount = 0 ∧ t.err = s.err ∧
    Appended (if s.phase = .idle then [] else [.conf]) s t ∧
    (s.phase = .idle → t.mem = s.mem ∧ t.len = s.len ∧ t.sink = s.sink) ∧
    t.riseTs = s.riseTs ∧ t.bits = s.bits ∧ t.cfg = s.cfg ∧ t.inputs = s.inputs

/-- 42 R104: the index incremented with saturation and used as the label, the positions zeroed, the phase kept. -/
def Obligations.FrameStartResult : Prop :=
  ∀ s : State, s.Inv → s.fatal = false → ∃ t, exec .frameStart s = .next t ∧
    t.frameIndex = satinc s.frameIndex ∧ t.framePos = 0 ∧ t.bitCount = 0 ∧ t.phase = s.phase ∧
    t.err = s.err ++ (if s.bitCount = 0 then [] else [⟨.incomplete, s.bitCount.zeroExtend 32⟩]) ∧
    Appended [.frame (satinc s.frameIndex)] s t ∧
    t.riseTs = s.riseTs ∧ t.bits = s.bits ∧ t.cfg = s.cfg ∧ t.inputs = s.inputs

/-- 42 R107: the warning only in INMSG, the full reset always; nothing of the buffer. -/
def Obligations.InvalidResult : Prop :=
  ∀ (d : Ts) (s : State), s.fatal = false → exec (.invalid d) s = .next { s with
    err := s.err ++ (if s.phase = .inMsg then [⟨.decode, d⟩] else []),
    phase := .idle, frameIndex := 0, framePos := 0, bitCount := 0 }

/-- 42 R105, R106, 43 R130, R132, R133: a bit that completes no byte is stored and counted; Trace mode hands it to `Append` at once, Compact mode
leaves the buffer and the sink alone. -/
def Obligations.BitInsideByteResult : Prop :=
  ∀ (i : Instr) (b : Bool) (s : State), (i = .bit0 ∧ b = false) ∨ (i = .bit1 ∧ b = true) →
    s.Inv → s.fatal = false → s.bitCount ≠ 7 → ∃ t, exec i s = .next t ∧
      (∀ h : s.bitCount.toNat < 8, t.bits = s.bits.set s.bitCount.toNat b h) ∧
      t.bitCount = s.bitCount + 1 ∧
      Appended (if s.cfg.verbosity = .trace then [.bit b] else []) s t ∧ t.fatal = false ∧
      (s.cfg.verbosity = .compact → t.mem = s.mem ∧ t.len = s.len ∧ t.sink = s.sink ∧ t.slots = s.slots) ∧
      (s.cfg.verbosity = .trace → s.slots = [] → s.len + 1 ≤ s.cfg.cap → t.len = s.len + 1 ∧ t.sink = s.sink) ∧
      t.phase = s.phase ∧ t.frameIndex = s.frameIndex ∧ t.framePos = s.framePos ∧
      t.riseTs = s.riseTs ∧ t.err = s.err ∧ t.cfg = s.cfg ∧ t.inputs = s.inputs

/-- 43 R130, R134, 42 R109: the bit that completes a byte, when nothing is oversized: the byte is rendered, the policy's markers follow, and
byte 19 of frame 2 ends the sequence with a flush and a full reset. -/
def Obligations.BitCompletingByteResult : Prop :=
  ∀ (i : Instr) (b : Bool) (s : State), (i = .bit0 ∧ b = false) ∨ (i = .bit1 ∧ b = true) →
    s.Inv → s.fatal = false → s.bitCount = 7 → (bitFragments b s).all (fits s.cfg) = true → ∃ t, exec i s = .next t ∧
      t.bits = s.bits.set 7 b ∧ t.bitCount = 0 ∧
      (if s.frameIndex = 2 ∧ satinc s.framePos = 19 then t.phase = .idle ∧ t.frameIndex = 0 ∧ t.framePos = 0 ∧ t.len = 0
        else t.phase = s.phase ∧ t.frameIndex = s.frameIndex ∧ t.framePos = satinc s.framePos) ∧
      Appended ((if s.cfg.verbosity = .trace then [.bit b, .byteSep] else [.hex (assemble s.cfg.bitOrder (s.bits.set 7 b))]) ++
        (if (s.frameIndex = 0 ∨ s.frameIndex = 1) ∧ satinc s.framePos = 8 then [.frameDone]
          else if s.frameIndex = 2 ∧ satinc s.framePos = 19 then [.frameDone, .seqDone] else [])) s t ∧
      t.riseTs = s.riseTs ∧ t.err = s.err ∧ t.cfg = s.cfg ∧ t.inputs = s.inputs

/-- 43 R134, 60 R163: a `Fatal` inside a byte completion freezes the core with `bit_count == 8`; the frame position counts the byte only if
the byte itself was rendered. -/
def Obligations.FatalInsideByteCompletionFreezes : Prop :=
  ∀ (i : Instr) (b : Bool) (s : State), (i = .bit0 ∧ b = false) ∨ (i = .bit1 ∧ b = true) →
    s.Inv → s.fatal = false → s.bitCount = 7 → (bitFragments b s).all (fits s.cfg) = false → ∃ t, exec i s = .next t ∧
      t.fatal = true ∧ t.len = 0 ∧ t.bits = s.bits.set 7 b ∧ t.bitCount = 8 ∧
      t.phase = s.phase ∧ t.frameIndex = s.frameIndex ∧
      t.framePos = (if fits s.cfg (byteFragment (s.withBits (s.bits.set 7 b))) then satinc s.framePos else s.framePos) ∧
      Appended (bitFragments b s) s t ∧
      t.riseTs = s.riseTs ∧ t.err = s.err ∧ t.cfg = s.cfg ∧ t.inputs = s.inputs

/-- 42 R112: the transition table of the phase, for every symbol that does not halt the core. -/
def Obligations.PhaseFollowsTransitionTable : Prop :=
  ∀ (y : Symbol) (d : Ts) (s t : State), s.Inv → s.fatal = false → exec (symInstr s.cfg.strictness y d) s = .next t → t.fatal = false →
    t.phase = tablePhase s.cfg.strictness s.phase y (decide (s.bitCount = 7 ∧ seqCompletes s))

/-- 42 R107: a second INVALID finds nothing to do. -/
def Obligations.InvalidIsIdempotent : Prop :=
  ∀ (d e : Ts) (s t : State), s.fatal = false → exec (.invalid d) s = .next t → exec (.invalid e) t = .next t

/-! ### The output buffer -/

/-- 44 R140: `Append`, in its three cases: it fits; it fits after one flush; it never fits. -/
def Obligations.AppendResult : Prop :=
  ∀ (t : Text) (s : State), s.Inv →
    (s.len + t.length ≤ s.cfg.cap →
      append t s = .done { s with mem := s.mem.writeSpan s.len t, len := s.len + t.length }) ∧
    (s.cfg.cap < s.len + t.length → t.length ≤ s.cfg.cap →
      append t s = .done { s with sink := s.sink ++ (if s.len = 0 then [] else [s.mem.readSpan 0 s.len]),
                                  mem := s.mem.writeSpan 0 t, len := t.length }) ∧
    (s.cfg.cap < t.length →
      append t s = .halted { s with sink := s.sink ++ (if s.len = 0 then [] else [s.mem.readSpan 0 s.len]), len := 0, fatal := true })

/-- 44 R145: the empty text changes nothing, even in a full buffer. -/
def Obligations.AppendOfEmptyTextDoesNothing : Prop :=
  ∀ s : State, s.Inv → append [] s = .done s

/-- 20 R45: two flushes in a row equal one. -/
def Obligations.FlushIsIdempotent : Prop :=
  ∀ s t : State, flush s = .done t → flush t = .done t

/-- 20 R41: MemWrite sets exactly the cells named; MemRead returns the cells named, lowest index first. -/
def Obligations.MemWriteThenMemRead : Prop :=
  ∀ (s : State) (addr : Nat), Memory.wf s.mem →
    (∀ n, addr + n ≤ s.cfg.cap → memRead s addr n = .ok ((List.range n).map fun i => s.mem.read (addr + i))) ∧
    ∀ t : Text, addr + t.length ≤ s.cfg.cap → ∃ u, memWrite s addr t = .done u ∧ Memory.wf u.mem ∧ u = { s with mem := u.mem } ∧
      (∀ (i : Nat) (h : i < t.length), u.mem.read (addr + i) = t[i]) ∧
      ∀ a, ¬(addr ≤ a ∧ a < addr + t.length) → u.mem.read a = s.mem.read a

/-- The model's own stop (log entry 9): 20 R41 requires `addr + n <= CAP`, and the model faults where that fails. -/
def Obligations.AccessPastTheLastCellStops : Prop :=
  ∀ (s : State) (addr : Nat) (t : Text), s.cfg.cap < addr + t.length →
    memWrite s addr t = .fault .bufferRange ∧ memRead s addr t.length = .error .bufferRange

/-- 20 R48, R50: every operation but RESET makes the shown text grow by exactly its fragments, in order, up to the first oversized one, and the
error channel by exactly its warnings; every cell outside the stored spans is unchanged. An operation other than FLUSH that hands over no
fragment leaves the buffer's length and the sink alone, and while everything fits, no FLUSH is placed and no sequence ends, the text only
waits: no burst is written. -/
def Obligations.EveryOperationShowsItsFragmentsInOrder : Prop :=
  ∀ (i : Instr) (s : State), s.Inv → s.fatal = false → i ≠ .reset → ∃ t, exec i s = .next t ∧
    Appended (fragmentsOf i s) s t ∧ t.err = s.err ++ warningsOf i s ∧
    (i ≠ .flush → fragmentsOf i s = [] → t.len = s.len ∧ t.sink = s.sink) ∧
    (flushesAtEnd i s = false → s.slots = [] →
      s.len + ((fragmentsOf i s).flatMap (fragmentText s.cfg)).length ≤ s.cfg.cap →
      t.len = s.len + ((fragmentsOf i s).flatMap (fragmentText s.cfg)).length ∧ t.sink = s.sink) ∧
    (flushesAtEnd i s = true → t.len = 0)

/-- 20 R43, R50, 44 R140, R144, R148 (c): the bursts an operation writes are exactly those of the overflows of its fragments, of the FLUSH steps
placed among them and of its own flush at the end; and every new burst ends after the text that waited before and a whole number of the
operation's fragments, so no burst boundary falls inside a fragment. -/
def Obligations.BurstsEndBetweenFragmentsWhereTheBufferRulesSay : Prop :=
  ∀ (i : Instr) (s : State), s.Inv → i ≠ .reset → ∃ t, exec i s = .next t ∧ t.output = outputAfter i s ∧
    ∃ bs, t.sink = s.sink ++ bs ∧ ∀ k, 1 ≤ k → k ≤ bs.length → ∃ m, m ≤ ((fragmentsOf i s).takeWhile (fits s.cfg)).length ∧
      (bs.take k).flatten = s.bufText ++ (((fragmentsOf i s).takeWhile (fits s.cfg)).take m).flatMap (fragmentText s.cfg)

/-- 44 R148 (f), 20 R47: where the FLUSHER's steps fall inside an operation changes no register, not `fatal`, and not the shown text. -/
def Obligations.PlacementOfFlushIsInvisible : Prop :=
  ∀ (i : Instr) (s : State) (slots : List Bool), s.Inv → ∃ t u,
    exec i (s.withSlots slots) = .next t ∧ exec i (s.withSlots []) = .next u ∧
    SameRegs u t ∧ t.fatal = u.fatal ∧ t.shown = u.shown

/-- 44 R143, 60 R163: an operation with an oversized fragment halts the core, with the buffer empty and everything before that fragment shown. -/
def Obligations.OversizedFragmentHaltsTheCore : Prop :=
  ∀ (i : Instr) (s : State), s.Inv → s.fatal = false → i ≠ .reset → (fragmentsOf i s).all (fits s.cfg) = false → ∃ t,
    exec i s = .next t ∧ t.fatal = true ∧ t.len = 0 ∧
    t.sink.flatten = s.sink.flatten ++ s.mem.readSpan 0 s.len ++
      ((fragmentsOf i s).takeWhile (fits s.cfg)).flatMap (fragmentText s.cfg)

/-- 44 R148 (e): when every fragment the configuration can produce fits, `fatal` is never set; and every fragment a well-formed operation hands
to `Append` is one the configuration can produce. -/
def Obligations.FatalNeverSetWhenFragmentsFit : Prop :=
  (∀ s t : State, s.Inv → (∀ f, producible s.cfg f = true → fits s.cfg f = true) → s.fatal = false → step s = .next t → t.fatal = false) ∧
  ∀ (i : Instr) (s : State) (f : Fragment), i.wf s.cfg = true → f ∈ fragmentsOf i s → producible s.cfg f = true

/-- 30 R63: with the default texts every fragment fits a buffer of ten characters or more. -/
def Obligations.DefaultTextsFitTenCharacters : Prop :=
  ∀ (v : Verbosity) (σ : Strictness) (n : Nat) (f : Fragment), 10 ≤ n → fits { Cfg.calibrated v σ with cap := n } f = true

/-- 70 R190: at most four Appends in one operation, and at most five flushes when no FLUSHER's step falls inside it. -/
def Obligations.WorkOfOneOperationIsBounded : Prop :=
  ∀ (i : Instr) (s t : State), s.Inv → (fragmentsOf i s).length ≤ 4 ∧
    (s.slots = [] → exec i s = .next t → t.sink.length ≤ s.sink.length + 5)

/-! ### Whole-machine rules -/

/-- The "written by" column of 10 R10 with R26 and R21, `RESET` beside it: which operations write which register and history, the FLUSH steps
placed inside an operation included (an EDGE_FALL writes what its symbol's handler writes, EdgeFallRunsTheHandlerOfItsSymbol). -/
def Obligations.OnlyTheseOperationsWriteEachRegister : Prop :=
  ∀ (i : Instr) (s t : State), s.Inv → (∀ ts, i ≠ .edgeFall ts) → exec i s = .next t →
    (t.riseTs ≠ s.riseTs → i = .reset ∨ ∃ ts, i = .edgeRise ts) ∧
    (t.phase ≠ s.phase → i = .reset ∨ i = .msgStart ∨ i = .frameConfS ∨ (∃ d, i = .invalid d) ∨
      ((i = .bit0 ∨ i = .bit1) ∧ s.bitCount = 7 ∧ seqCompletes s)) ∧
    (t.frameIndex ≠ s.frameIndex → i = .reset ∨ i = .msgStart ∨ i = .frameConfS ∨ i = .frameStart ∨ (∃ d, i = .invalid d) ∨
      ((i = .bit0 ∨ i = .bit1) ∧ s.bitCount = 7 ∧ seqCompletes s)) ∧
    (t.framePos ≠ s.framePos → i = .reset ∨ i = .msgStart ∨ i = .frameConfS ∨ i = .frameStart ∨ (∃ d, i = .invalid d) ∨
      ((i = .bit0 ∨ i = .bit1) ∧ s.bitCount = 7)) ∧
    (t.bitCount ≠ s.bitCount → i = .reset ∨ i = .msgStart ∨ i = .frameConfS ∨ i = .frameStart ∨ (∃ d, i = .invalid d) ∨
      i = .bit0 ∨ i = .bit1) ∧
    (t.bits ≠ s.bits → i = .reset ∨ i = .bit0 ∨ i = .bit1) ∧
    (t.mem ≠ s.mem → i = .msgStart ∨ (i = .frameConfS ∧ s.phase ≠ .idle) ∨ i = .frameStart ∨
        ((i = .bit0 ∨ i = .bit1) ∧ (s.cfg.verbosity = .trace ∨ s.bitCount = 7))) ∧
    (t.len ≠ s.len → i = .reset ∨ i = .flush ∨
      i = .msgStart ∨ (i = .frameConfS ∧ s.phase ≠ .idle) ∨ i = .frameStart ∨
        ((i = .bit0 ∨ i = .bit1) ∧ (s.cfg.verbosity = .trace ∨ s.bitCount = 7))) ∧
    (t.fatal ≠ s.fatal → i = .reset ∨
      i = .msgStart ∨ (i = .frameConfS ∧ s.phase ≠ .idle) ∨ i = .frameStart ∨
        ((i = .bit0 ∨ i = .bit1) ∧ s.bitCount = 7)) ∧
    (t.sink ≠ s.sink → i = .flush ∨
      i = .msgStart ∨ (i = .frameConfS ∧ s.phase ≠ .idle) ∨ i = .frameStart ∨
        ((i = .bit0 ∨ i = .bit1) ∧ (s.cfg.verbosity = .trace ∨ s.bitCount = 7))) ∧
    (t.err ≠ s.err → i = .msgStart ∨ i = .frameStart ∨ ∃ d, i = .invalid d) ∧
    t.cfg = s.cfg

/-- 10 R21, 20 R54: no step takes anything back from the sink or the error channel, or changes the configuration. -/
def Obligations.HistoriesOnlyGrowAndStrapsStay : Prop :=
  ∀ s t : State, s.Inv → step s = .next t → s.sink <+: t.sink ∧ s.err <+: t.err ∧ t.cfg = s.cfg

/-- 10 R18, 60 R168: only a word with `rst == 1` leads out of the fatal state. -/
def Obligations.OnlyResetLeavesFatal : Prop :=
  ∀ s t : State, s.fatal = true → step s = .next t → t.fatal = false →
    ∃ w grant slots rest, s.inputs = .word w grant slots :: rest ∧ OpWord.rst w = true

/-! ### Pure functions -/

/-- 40 R82: both branches, and the modular difference they equal. -/
def Obligations.DurationIsTheModularDifference : Prop :=
  ∀ p c : Ts,
    (c < p → (duration p c).toNat = (2 ^ 32 - 1 - p.toNat + 1) + c.toNat) ∧
    (¬c < p → (duration p c).toNat = c.toNat - p.toNat) ∧
    duration p c = c - p

/-- 40 R83 (a) to (e). -/
def Obligations.DurationLaws : Prop :=
  (∀ p c : Ts, (duration p c).toNat ≤ 2 ^ 32 - 1 ∧
    (c < p → 2 ^ 32 - 1 - p.toNat + 1 ≤ 2 ^ 32 - 1 ∧ (2 ^ 32 - 1 - p.toNat + 1) + c.toNat ≤ 2 ^ 32 - 1)) ∧
  (∀ p : Ts, duration p p = 0) ∧
  (∀ (p : Ts) (e : Nat), e < 2 ^ 32 → (duration p (p + BitVec.ofNat 32 e)).toNat = e) ∧
  (∀ (p : Ts) (e : Nat), 2 ^ 32 ≤ e → (duration p (p + BitVec.ofNat 32 e)).toNat = e % 2 ^ 32) ∧
  ∀ p c x : Ts, duration (p + x) (c + x) = duration p c

/-- 41 R90 to R96: when each symbol is returned, for arbitrary bounds; all comparisons strict and unsigned, first match wins. -/
def Obligations.ClassifierReturnsFirstMatch : Prop :=
  ∀ (c : Cfg) (d : Ts),
    let ms := c.ms.lo.toNat < d.toNat ∧ d.toNat < c.ms.hi.toNat
    let fc := c.fc.lo.toNat < d.toNat ∧ d.toNat < c.fc.hi.toNat
    let fs := c.fs.lo.toNat < d.toNat ∧ d.toNat < c.fs.hi.toNat
    let b0 := c.b0.lo.toNat < d.toNat ∧ d.toNat < c.b0.hi.toNat
    let b1 := c.b1.lo.toNat < d.toNat ∧ d.toNat < c.b1.hi.toNat
    (classify c d = .msgStart ↔ ms) ∧
    (classify c d = .frameConf ↔ ¬ms ∧ fc) ∧
    (classify c d = .frameStart ↔ ¬ms ∧ ¬fc ∧ fs) ∧
    (classify c d = .bit0 ↔ ¬ms ∧ ¬fc ∧ ¬fs ∧ b0) ∧
    (classify c d = .bit1 ↔ ¬ms ∧ ¬fc ∧ ¬fs ∧ ¬b0 ∧ b1) ∧
    (classify c d = .invalid ↔ ¬ms ∧ ¬fc ∧ ¬fs ∧ ¬b0 ∧ ¬b1)

/-- 41 R91 to R96, R99 (b): the durations of each of the six symbols under the two presets; under ALTERNATE no duration is BIT1. -/
def Obligations.PresetsClassifyTheirRanges : Prop :=
  ∀ (v : Verbosity) (σ : Strictness) (d : Ts),
    (classify (Cfg.calibrated v σ) d = .msgStart ↔ 24501 ≤ d.toNat ∧ d.toNat ≤ 25999) ∧
    (classify (Cfg.calibrated v σ) d = .frameConf ↔ 1501 ≤ d.toNat ∧ d.toNat ≤ 1699) ∧
    (classify (Cfg.calibrated v σ) d = .frameStart ↔ 34001 ≤ d.toNat ∧ d.toNat ≤ 35999) ∧
    (classify (Cfg.calibrated v σ) d = .bit0 ↔ 201 ≤ d.toNat ∧ d.toNat ≤ 449) ∧
    (classify (Cfg.calibrated v σ) d = .bit1 ↔ 1101 ≤ d.toNat ∧ d.toNat ≤ 1299) ∧
    (classify (Cfg.alternate v σ) d = .msgStart ↔ 24501 ≤ d.toNat ∧ d.toNat ≤ 25999) ∧
    (classify (Cfg.alternate v σ) d = .frameConf ↔ 1151 ≤ d.toNat ∧ d.toNat ≤ 1699) ∧
    (classify (Cfg.alternate v σ) d = .frameStart ↔ 34001 ≤ d.toNat ∧ d.toNat ≤ 35999) ∧
    (classify (Cfg.alternate v σ) d = .bit0 ↔ 301 ≤ d.toNat ∧ d.toNat ≤ 449) ∧
    classify (Cfg.alternate v σ) d ≠ .bit1 ∧
    (classify (Cfg.calibrated v σ) d = .invalid ↔ d.toNat ≤ 200 ∨ (450 ≤ d.toNat ∧ d.toNat ≤ 1100) ∨ (1300 ≤ d.toNat ∧ d.toNat ≤ 1500) ∨
      (1700 ≤ d.toNat ∧ d.toNat ≤ 24500) ∨ (26000 ≤ d.toNat ∧ d.toNat ≤ 34000) ∨ 36000 ≤ d.toNat) ∧
    (classify (Cfg.alternate v σ) d = .invalid ↔ d.toNat ≤ 300 ∨ (450 ≤ d.toNat ∧ d.toNat ≤ 1150) ∨
      (1700 ≤ d.toNat ∧ d.toNat ≤ 24500) ∨ (26000 ≤ d.toNat ∧ d.toNat ≤ 34000) ∨ 36000 ≤ d.toNat)

/-- 43 R131: bit i of the byte is cell i under LAST_IS_MSB and cell 7 - i under FIRST_IS_MSB. -/
def Obligations.AssembledByteBits : Prop :=
  ∀ (bits : Vector Bool 8) (i : Nat) (h : i < 8),
    (assemble .lastIsMsb bits).getLsbD i = bits[i] ∧ (assemble .firstIsMsb bits).getLsbD i = bits[7 - i]

/-- 30 R72: `BYTE v` submits the bits of `v` so that the assembled byte equals `v`, under either order. -/
def Obligations.BytePseudoOperationAssemblesItsByte : Prop :=
  ∀ (o : BitOrder) (v : Byte) (bits : Vector Bool 8), bits.toList = submissionOrder o v → assemble o bits = v

/-- 30 R65: always two characters, high nibble first, `0` .. `9` and lower-case `a` .. `f`. -/
def Obligations.HexRendering : Prop :=
  ∀ v : Byte,
    let digit : Nat → Byte := fun x => BitVec.ofNat 8 (if x ≤ 9 then 0x30 + x else 0x61 + (x - 10))
    hex2 v = [digit (v.toNat / 16), digit (v.toNat % 16)]

/-- 30 R64: a decimal numeral of the number, digits only, with no leading zero. -/
def Obligations.DecimalRendering : Prop :=
  ∀ n : Nat,
    (dec n).foldl (fun acc c => 10 * acc + (c.toNat - 0x30)) 0 = n ∧
    (∀ c ∈ dec n, 0x30 ≤ c.toNat ∧ c.toNat ≤ 0x39) ∧
    (n ≠ 0 → (dec n).head? ≠ some 0x30) ∧
    dec 0 = [0x30]

/-- 42 R113. -/
def Obligations.SaturatingIncrement : Prop :=
  ∀ v : BitVec 8, (v.toNat < 2 ^ 8 - 1 → (satinc v).toNat = v.toNat + 1) ∧ (v.toNat = 2 ^ 8 - 1 → satinc v = v)

/-- 30 R73: a burst is as many transfers as characters, in order, the last one marked and no other; the transfers of all bursts carry the text the
sink has received. -/
def Obligations.BurstTransfersCarryTheBurst : Prop :=
  (∀ t : Text, (burstTransfers t).map (fun x => x.data) = t ∧
    ∀ (k : Nat) (x : SinkTransfer), (burstTransfers t)[k]? = some x → (x.last = true ↔ k + 1 = t.length)) ∧
  ∀ s : State, s.sinkTransfers.map (fun x => x.data) = s.sink.flatten

/-- 30 R73, R67: one transfer per warning record, in order, with code 1 for W_DECODE and 2 for W_INCOMPLETE (never 0 or 3) and the record's info;
an operation adds exactly the transfers of its warnings, `RESET` none. -/
def Obligations.ErrorChannelTransfersCarryTheRecords : Prop :=
  (∀ s : State, s.warnTransfers.length = s.err.length ∧
    ∀ (k : Nat) (w : Warning), s.err[k]? = some w → ∃ x, s.warnTransfers[k]? = some x ∧ x.info = w.info ∧
      (w.code = .decode → x.code = 1) ∧ (w.code = .incomplete → x.code = 2) ∧ x.code ≠ 0 ∧ x.code ≠ 3) ∧
  ∀ (i : Instr) (s : State), s.Inv → ∃ t, exec i s = .next t ∧ t.warnTransfers = s.warnTransfers ++ (warningsOf i s).map warnTransfer

/-- 10 R19: the status outputs are functions of the state; and what the operations that clear, empty or halt do to them. -/
def Obligations.StatusOutputsFollowTheState : Prop :=
  (∀ s : State, (s.inSequence = true ↔ s.phase = .inMsg) ∧ (s.fatalOut = true ↔ s.fatal = true) ∧ (s.bufEmpty = true ↔ s.len = 0)) ∧
  ∀ s t : State, s.Inv →
    (exec .reset s = .next t → t.inSequence = false ∧ t.fatalOut = false ∧ t.bufEmpty = true) ∧
    (exec .flush s = .next t → t.bufEmpty = true ∧ t.inSequence = s.inSequence ∧ t.fatalOut = s.fatalOut) ∧
    (∀ d, s.fatalOut = false → exec (.invalid d) s = .next t → t.inSequence = false ∧ t.fatalOut = false ∧ t.bufEmpty = s.bufEmpty) ∧
    (s.fatalOut = false → exec .msgStart s = .next t → (t.inSequence = true ↔ t.cfg.strictness = .permissive)) ∧
    (step s = .next t → t.fatalOut = true → t.bufEmpty = true)
end

