-- ==== Sys2Proof/Laws/Memory.lean ====
section
/-! SUPPORT. The memory laws: read after write, every other cell left alone, the canonical form kept (20 R41, R42). -/

namespace Sys2Proof.Machine

theorem Memory.read_put_self (a : Nat) (v : Byte) (m : Memory) (h : ∀ c ∈ m, a < c.1) : Memory.read (Memory.put a v m) a = v := by
  have absent : ∀ m : Memory, (∀ c ∈ m, a < c.1) → Memory.read m a = memDefault := by
    intro m
    induction m with
    | nil => intro _; rfl
    | cons c m ih =>
      intro h
      have h1 := h c (by simp)
      simp only [Memory.read, Nat.ne_of_lt h1, if_false]
      exact ih fun d hd => h d (by simp [hd])
  unfold Memory.put
  split
  · rename_i hv; rw [absent m h, hv]
  · simp [Memory.read]

theorem Memory.read_put_ne (a b : Nat) (v : Byte) (m : Memory) (h : b ≠ a) : Memory.read (Memory.put a v m) b = Memory.read m b := by
  unfold Memory.put
  split
  · rfl
  · simp [Memory.read, h]

theorem Memory.wf_cons {c : Host.Cell} {m : Memory} : Memory.wf (c :: m) ↔ (∀ d ∈ m, c.1 < d.1) ∧ c.2 ≠ memDefault ∧ Memory.wf m := by
  simp only [Memory.wf, List.pairwise_cons, List.forall_mem_cons]
  tauto

theorem Memory.read_write_ne (m : Memory) (a b : Nat) (v : Byte) (h : b ≠ a) : Memory.read (Memory.write m a v) b = Memory.read m b := by
  induction m with
  | nil => exact Memory.read_put_ne a b v [] h
  | cons c m ih =>
    simp only [Memory.write]
    split
    · exact Memory.read_put_ne a b v _ h
    · split
      · rename_i hc
        rw [Memory.read_put_ne a b v _ h]
        simp [Memory.read, ← hc, h]
      · simp only [Memory.read, ih]

theorem Memory.read_write_self (m : Memory) (a : Nat) (v : Byte) (hm : Memory.wf m) : Memory.read (Memory.write m a v) a = v := by
  induction m with
  | nil => exact Memory.read_put_self a v [] (by simp)
  | cons c m ih =>
    obtain ⟨hc, -, hm⟩ := Memory.wf_cons.mp hm
    simp only [Memory.write]
    split
    · rename_i h
      refine Memory.read_put_self a v _ ?_
      simp only [List.forall_mem_cons]
      exact ⟨h, fun d hd => h.trans (hc d hd)⟩
    · split
      · rename_i h
        exact Memory.read_put_self a v _ fun d hd => h ▸ hc d hd
      · rename_i h
        simp only [Memory.read, h, if_false]
        exact ih hm

/-- A write lists no address but the old ones and its own. -/
theorem Memory.mem_write (m : Memory) (a : Nat) (v : Byte) {c : Host.Cell} (h : c ∈ Memory.write m a v) : c ∈ m ∨ c.1 = a := by
  have put : ∀ m : Memory, c ∈ Memory.put a v m → c ∈ m ∨ c.1 = a := by
    intro m hm
    unfold Memory.put at hm
    split at hm
    · exact .inl hm
    · rcases List.mem_cons.mp hm with rfl | hm
      · exact .inr rfl
      · exact .inl hm
  induction m with
  | nil => exact put [] h
  | cons d m ih =>
    simp only [Memory.write] at h
    split at h
    · exact put _ h
    · split at h
      · rcases put _ h with h | h
        · exact .inl (by simp [h])
        · exact .inr h
      · rcases List.mem_cons.mp h with rfl | h
        · exact .inl (by simp)
        · rcases ih h with h | h
          · exact .inl (by simp [h])
          · exact .inr h

theorem Memory.wf_put (a : Nat) (v : Byte) (m : Memory) (hm : Memory.wf m) (h : ∀ c ∈ m, a < c.1) : Memory.wf (Memory.put a v m) := by
  unfold Memory.put
  split
  · exact hm
  · rename_i hv; exact Memory.wf_cons.mpr ⟨h, hv, hm⟩

/-- A write keeps the canonical form. -/
theorem Memory.wf_write (m : Memory) (a : Nat) (v : Byte) (hm : Memory.wf m) : Memory.wf (Memory.write m a v) := by
  induction m with
  | nil => exact Memory.wf_put a v [] hm (by simp)
  | cons c m ih =>
    obtain ⟨hc, hv, hm'⟩ := Memory.wf_cons.mp hm
    simp only [Memory.write]
    split
    · rename_i h
      refine Memory.wf_put a v _ hm ?_
      simp only [List.forall_mem_cons]
      exact ⟨h, fun d hd => h.trans (hc d hd)⟩
    · split
      · rename_i h
        exact Memory.wf_put a v _ hm' fun d hd => h ▸ hc d hd
      · refine Memory.wf_cons.mpr ⟨fun d hd => ?_, hv, ih hm'⟩
        rcases Memory.mem_write m a v hd with hd | hd
        · exact hc d hd
        · omega

theorem Memory.wf_writeSpan (t : Text) (m : Memory) (a : Nat) (hm : Memory.wf m) : Memory.wf (Memory.writeSpan m a t) := by
  induction t generalizing m a with
  | nil => exact hm
  | cons v t ih => exact ih _ _ (Memory.wf_write m a v hm)

theorem Memory.mem_writeSpan (t : Text) (m : Memory) (a : Nat) {c : Host.Cell} (h : c ∈ Memory.writeSpan m a t) :
    c ∈ m ∨ (a ≤ c.1 ∧ c.1 < a + t.length) := by
  induction t generalizing m a with
  | nil => exact .inl h
  | cons v t ih =>
    rcases ih _ _ h with h | h
    · rcases Memory.mem_write m a v h with h | h
      · exact .inl h
      · right; simp only [List.length_cons]; omega
    · right; simp only [List.length_cons]; omega

/-- Cells outside the span read as before. -/
theorem Memory.read_writeSpan_outside (t : Text) (m : Memory) (a b : Nat) (h : ¬(a ≤ b ∧ b < a + t.length)) :
    Memory.read (Memory.writeSpan m a t) b = Memory.read m b := by
  induction t generalizing m a with
  | nil => rfl
  | cons v t ih =>
    simp only [List.length_cons] at h
    simp only [Memory.writeSpan]
    rw [ih _ _ (by omega), Memory.read_write_ne _ _ _ _ (by omega)]

@[simp] theorem Memory.readSpan_length (m : Memory) (a n : Nat) : (Memory.readSpan m a n).length = n := by
  induction n generalizing a with
  | zero => rfl
  | succ n ih => simp [Memory.readSpan, ih]

theorem Memory.readSpan_add (m : Memory) (a i j : Nat) :
    Memory.readSpan m a (i + j) = Memory.readSpan m a i ++ Memory.readSpan m (a + i) j := by
  induction i generalizing a with
  | zero => simp [Memory.readSpan]
  | succ i ih =>
    have : i + 1 + j = (i + j) + 1 := by omega
    have h2 : a + 1 + i = a + (i + 1) := by omega
    simp [this, Memory.readSpan, ih, h2]

theorem Memory.readSpan_congr (m k : Memory) (a n : Nat) (h : ∀ b, a ≤ b → b < a + n → Memory.read m b = Memory.read k b) :
    Memory.readSpan m a n = Memory.readSpan k a n := by
  induction n generalizing a with
  | zero => rfl
  | succ n ih =>
    simp only [Memory.readSpan]
    rw [h a (by omega) (by omega), ih (a + 1) fun b h1 h2 => h b (by omega) (by omega)]

/-- What was written is what is read (20 R42 (a)). -/
theorem Memory.readSpan_writeSpan_self (t : Text) (m : Memory) (a : Nat) (hm : Memory.wf m) :
    Memory.readSpan (Memory.writeSpan m a t) a t.length = t := by
  induction t generalizing m a with
  | nil => rfl
  | cons v t ih =>
    simp only [Memory.writeSpan, List.length_cons, Memory.readSpan]
    rw [ih _ _ (Memory.wf_write m a v hm), Memory.read_writeSpan_outside _ _ _ _ (by omega), Memory.read_write_self m a v hm]

/-- Text appended at the cursor comes after the text before it (20 R42 (b)). -/
theorem Memory.readSpan_writeSpan_append (t : Text) (m : Memory) (n : Nat) (hm : Memory.wf m) :
    Memory.readSpan (Memory.writeSpan m n t) 0 (n + t.length) = Memory.readSpan m 0 n ++ t := by
  rw [Memory.readSpan_add]
  congr 1
  · exact Memory.readSpan_congr _ _ _ _ fun b _ h => Memory.read_writeSpan_outside _ _ _ _ (by omega)
  · rw [Nat.zero_add]; exact Memory.readSpan_writeSpan_self t m n hm

end Sys2Proof.Machine
end

