-- ==== Sys2Proof/Laws/State.lean ====
section
/-! SUPPORT. One lemma per field per update of the state, true by rfl. -/

namespace Sys2Proof.Machine

@[simp] theorem State.withRiseTs_riseTs (s : State) (x : Ts) : (s.withRiseTs x).riseTs = x := rfl
@[simp] theorem State.withRiseTs_phase (s : State) (x : Ts) : (s.withRiseTs x).phase = s.phase := rfl
@[simp] theorem State.withRiseTs_frameIndex (s : State) (x : Ts) : (s.withRiseTs x).frameIndex = s.frameIndex := rfl
@[simp] theorem State.withRiseTs_framePos (s : State) (x : Ts) : (s.withRiseTs x).framePos = s.framePos := rfl
@[simp] theorem State.withRiseTs_bitCount (s : State) (x : Ts) : (s.withRiseTs x).bitCount = s.bitCount := rfl
@[simp] theorem State.withRiseTs_bits (s : State) (x : Ts) : (s.withRiseTs x).bits = s.bits := rfl
@[simp] theorem State.withRiseTs_mem (s : State) (x : Ts) : (s.withRiseTs x).mem = s.mem := rfl
@[simp] theorem State.withRiseTs_len (s : State) (x : Ts) : (s.withRiseTs x).len = s.len := rfl
@[simp] theorem State.withRiseTs_fatal (s : State) (x : Ts) : (s.withRiseTs x).fatal = s.fatal := rfl
@[simp] theorem State.withRiseTs_cfg (s : State) (x : Ts) : (s.withRiseTs x).cfg = s.cfg := rfl
@[simp] theorem State.withRiseTs_sink (s : State) (x : Ts) : (s.withRiseTs x).sink = s.sink := rfl
@[simp] theorem State.withRiseTs_err (s : State) (x : Ts) : (s.withRiseTs x).err = s.err := rfl
@[simp] theorem State.withRiseTs_inputs (s : State) (x : Ts) : (s.withRiseTs x).inputs = s.inputs := rfl
@[simp] theorem State.withRiseTs_slots (s : State) (x : Ts) : (s.withRiseTs x).slots = s.slots := rfl
@[simp] theorem State.withPhase_riseTs (s : State) (x : Phase) : (s.withPhase x).riseTs = s.riseTs := rfl
@[simp] theorem State.withPhase_phase (s : State) (x : Phase) : (s.withPhase x).phase = x := rfl
@[simp] theorem State.withPhase_frameIndex (s : State) (x : Phase) : (s.withPhase x).frameIndex = s.frameIndex := rfl
@[simp] theorem State.withPhase_framePos (s : State) (x : Phase) : (s.withPhase x).framePos = s.framePos := rfl
@[simp] theorem State.withPhase_bitCount (s : State) (x : Phase) : (s.withPhase x).bitCount = s.bitCount := rfl
@[simp] theorem State.withPhase_bits (s : State) (x : Phase) : (s.withPhase x).bits = s.bits := rfl
@[simp] theorem State.withPhase_mem (s : State) (x : Phase) : (s.withPhase x).mem = s.mem := rfl
@[simp] theorem State.withPhase_len (s : State) (x : Phase) : (s.withPhase x).len = s.len := rfl
@[simp] theorem State.withPhase_fatal (s : State) (x : Phase) : (s.withPhase x).fatal = s.fatal := rfl
@[simp] theorem State.withPhase_cfg (s : State) (x : Phase) : (s.withPhase x).cfg = s.cfg := rfl
@[simp] theorem State.withPhase_sink (s : State) (x : Phase) : (s.withPhase x).sink = s.sink := rfl
@[simp] theorem State.withPhase_err (s : State) (x : Phase) : (s.withPhase x).err = s.err := rfl
@[simp] theorem State.withPhase_inputs (s : State) (x : Phase) : (s.withPhase x).inputs = s.inputs := rfl
@[simp] theorem State.withPhase_slots (s : State) (x : Phase) : (s.withPhase x).slots = s.slots := rfl
@[simp] theorem State.withFrameIndex_riseTs (s : State) (x : BitVec 8) : (s.withFrameIndex x).riseTs = s.riseTs := rfl
@[simp] theorem State.withFrameIndex_phase (s : State) (x : BitVec 8) : (s.withFrameIndex x).phase = s.phase := rfl
@[simp] theorem State.withFrameIndex_frameIndex (s : State) (x : BitVec 8) : (s.withFrameIndex x).frameIndex = x := rfl
@[simp] theorem State.withFrameIndex_framePos (s : State) (x : BitVec 8) : (s.withFrameIndex x).framePos = s.framePos := rfl
@[simp] theorem State.withFrameIndex_bitCount (s : State) (x : BitVec 8) : (s.withFrameIndex x).bitCount = s.bitCount := rfl
@[simp] theorem State.withFrameIndex_bits (s : State) (x : BitVec 8) : (s.withFrameIndex x).bits = s.bits := rfl
@[simp] theorem State.withFrameIndex_mem (s : State) (x : BitVec 8) : (s.withFrameIndex x).mem = s.mem := rfl
@[simp] theorem State.withFrameIndex_len (s : State) (x : BitVec 8) : (s.withFrameIndex x).len = s.len := rfl
@[simp] theorem State.withFrameIndex_fatal (s : State) (x : BitVec 8) : (s.withFrameIndex x).fatal = s.fatal := rfl
@[simp] theorem State.withFrameIndex_cfg (s : State) (x : BitVec 8) : (s.withFrameIndex x).cfg = s.cfg := rfl
@[simp] theorem State.withFrameIndex_sink (s : State) (x : BitVec 8) : (s.withFrameIndex x).sink = s.sink := rfl
@[simp] theorem State.withFrameIndex_err (s : State) (x : BitVec 8) : (s.withFrameIndex x).err = s.err := rfl
@[simp] theorem State.withFrameIndex_inputs (s : State) (x : BitVec 8) : (s.withFrameIndex x).inputs = s.inputs := rfl
@[simp] theorem State.withFrameIndex_slots (s : State) (x : BitVec 8) : (s.withFrameIndex x).slots = s.slots := rfl
@[simp] theorem State.withFramePos_riseTs (s : State) (x : BitVec 8) : (s.withFramePos x).riseTs = s.riseTs := rfl
@[simp] theorem State.withFramePos_phase (s : State) (x : BitVec 8) : (s.withFramePos x).phase = s.phase := rfl
@[simp] theorem State.withFramePos_frameIndex (s : State) (x : BitVec 8) : (s.withFramePos x).frameIndex = s.frameIndex := rfl
@[simp] theorem State.withFramePos_framePos (s : State) (x : BitVec 8) : (s.withFramePos x).framePos = x := rfl
@[simp] theorem State.withFramePos_bitCount (s : State) (x : BitVec 8) : (s.withFramePos x).bitCount = s.bitCount := rfl
@[simp] theorem State.withFramePos_bits (s : State) (x : BitVec 8) : (s.withFramePos x).bits = s.bits := rfl
@[simp] theorem State.withFramePos_mem (s : State) (x : BitVec 8) : (s.withFramePos x).mem = s.mem := rfl
@[simp] theorem State.withFramePos_len (s : State) (x : BitVec 8) : (s.withFramePos x).len = s.len := rfl
@[simp] theorem State.withFramePos_fatal (s : State) (x : BitVec 8) : (s.withFramePos x).fatal = s.fatal := rfl
@[simp] theorem State.withFramePos_cfg (s : State) (x : BitVec 8) : (s.withFramePos x).cfg = s.cfg := rfl
@[simp] theorem State.withFramePos_sink (s : State) (x : BitVec 8) : (s.withFramePos x).sink = s.sink := rfl
@[simp] theorem State.withFramePos_err (s : State) (x : BitVec 8) : (s.withFramePos x).err = s.err := rfl
@[simp] theorem State.withFramePos_inputs (s : State) (x : BitVec 8) : (s.withFramePos x).inputs = s.inputs := rfl
@[simp] theorem State.withFramePos_slots (s : State) (x : BitVec 8) : (s.withFramePos x).slots = s.slots := rfl
@[simp] theorem State.withBitCount_riseTs (s : State) (x : BitVec 4) : (s.withBitCount x).riseTs = s.riseTs := rfl
@[simp] theorem State.withBitCount_phase (s : State) (x : BitVec 4) : (s.withBitCount x).phase = s.phase := rfl
@[simp] theorem State.withBitCount_frameIndex (s : State) (x : BitVec 4) : (s.withBitCount x).frameIndex = s.frameIndex := rfl
@[simp] theorem State.withBitCount_framePos (s : State) (x : BitVec 4) : (s.withBitCount x).framePos = s.framePos := rfl
@[simp] theorem State.withBitCount_bitCount (s : State) (x : BitVec 4) : (s.withBitCount x).bitCount = x := rfl
@[simp] theorem State.withBitCount_bits (s : State) (x : BitVec 4) : (s.withBitCount x).bits = s.bits := rfl
@[simp] theorem State.withBitCount_mem (s : State) (x : BitVec 4) : (s.withBitCount x).mem = s.mem := rfl
@[simp] theorem State.withBitCount_len (s : State) (x : BitVec 4) : (s.withBitCount x).len = s.len := rfl
@[simp] theorem State.withBitCount_fatal (s : State) (x : BitVec 4) : (s.withBitCount x).fatal = s.fatal := rfl
@[simp] theorem State.withBitCount_cfg (s : State) (x : BitVec 4) : (s.withBitCount x).cfg = s.cfg := rfl
@[simp] theorem State.withBitCount_sink (s : State) (x : BitVec 4) : (s.withBitCount x).sink = s.sink := rfl
@[simp] theorem State.withBitCount_err (s : State) (x : BitVec 4) : (s.withBitCount x).err = s.err := rfl
@[simp] theorem State.withBitCount_inputs (s : State) (x : BitVec 4) : (s.withBitCount x).inputs = s.inputs := rfl
@[simp] theorem State.withBitCount_slots (s : State) (x : BitVec 4) : (s.withBitCount x).slots = s.slots := rfl
@[simp] theorem State.withBits_riseTs (s : State) (x : Vector Bool 8) : (s.withBits x).riseTs = s.riseTs := rfl
@[simp] theorem State.withBits_phase (s : State) (x : Vector Bool 8) : (s.withBits x).phase = s.phase := rfl
@[simp] theorem State.withBits_frameIndex (s : State) (x : Vector Bool 8) : (s.withBits x).frameIndex = s.frameIndex := rfl
@[simp] theorem State.withBits_framePos (s : State) (x : Vector Bool 8) : (s.withBits x).framePos = s.framePos := rfl
@[simp] theorem State.withBits_bitCount (s : State) (x : Vector Bool 8) : (s.withBits x).bitCount = s.bitCount := rfl
@[simp] theorem State.withBits_bits (s : State) (x : Vector Bool 8) : (s.withBits x).bits = x := rfl
@[simp] theorem State.withBits_mem (s : State) (x : Vector Bool 8) : (s.withBits x).mem = s.mem := rfl
@[simp] theorem State.withBits_len (s : State) (x : Vector Bool 8) : (s.withBits x).len = s.len := rfl
@[simp] theorem State.withBits_fatal (s : State) (x : Vector Bool 8) : (s.withBits x).fatal = s.fatal := rfl
@[simp] theorem State.withBits_cfg (s : State) (x : Vector Bool 8) : (s.withBits x).cfg = s.cfg := rfl
@[simp] theorem State.withBits_sink (s : State) (x : Vector Bool 8) : (s.withBits x).sink = s.sink := rfl
@[simp] theorem State.withBits_err (s : State) (x : Vector Bool 8) : (s.withBits x).err = s.err := rfl
@[simp] theorem State.withBits_inputs (s : State) (x : Vector Bool 8) : (s.withBits x).inputs = s.inputs := rfl
@[simp] theorem State.withBits_slots (s : State) (x : Vector Bool 8) : (s.withBits x).slots = s.slots := rfl
@[simp] theorem State.withMem_riseTs (s : State) (x : Memory) : (s.withMem x).riseTs = s.riseTs := rfl
@[simp] theorem State.withMem_phase (s : State) (x : Memory) : (s.withMem x).phase = s.phase := rfl
@[simp] theorem State.withMem_frameIndex (s : State) (x : Memory) : (s.withMem x).frameIndex = s.frameIndex := rfl
@[simp] theorem State.withMem_framePos (s : State) (x : Memory) : (s.withMem x).framePos = s.framePos := rfl
@[simp] theorem State.withMem_bitCount (s : State) (x : Memory) : (s.withMem x).bitCount = s.bitCount := rfl
@[simp] theorem State.withMem_bits (s : State) (x : Memory) : (s.withMem x).bits = s.bits := rfl
@[simp] theorem State.withMem_mem (s : State) (x : Memory) : (s.withMem x).mem = x := rfl
@[simp] theorem State.withMem_len (s : State) (x : Memory) : (s.withMem x).len = s.len := rfl
@[simp] theorem State.withMem_fatal (s : State) (x : Memory) : (s.withMem x).fatal = s.fatal := rfl
@[simp] theorem State.withMem_cfg (s : State) (x : Memory) : (s.withMem x).cfg = s.cfg := rfl
@[simp] theorem State.withMem_sink (s : State) (x : Memory) : (s.withMem x).sink = s.sink := rfl
@[simp] theorem State.withMem_err (s : State) (x : Memory) : (s.withMem x).err = s.err := rfl
@[simp] theorem State.withMem_inputs (s : State) (x : Memory) : (s.withMem x).inputs = s.inputs := rfl
@[simp] theorem State.withMem_slots (s : State) (x : Memory) : (s.withMem x).slots = s.slots := rfl
@[simp] theorem State.withLen_riseTs (s : State) (x : Nat) : (s.withLen x).riseTs = s.riseTs := rfl
@[simp] theorem State.withLen_phase (s : State) (x : Nat) : (s.withLen x).phase = s.phase := rfl
@[simp] theorem State.withLen_frameIndex (s : State) (x : Nat) : (s.withLen x).frameIndex = s.frameIndex := rfl
@[simp] theorem State.withLen_framePos (s : State) (x : Nat) : (s.withLen x).framePos = s.framePos := rfl
@[simp] theorem State.withLen_bitCount (s : State) (x : Nat) : (s.withLen x).bitCount = s.bitCount := rfl
@[simp] theorem State.withLen_bits (s : State) (x : Nat) : (s.withLen x).bits = s.bits := rfl
@[simp] theorem State.withLen_mem (s : State) (x : Nat) : (s.withLen x).mem = s.mem := rfl
@[simp] theorem State.withLen_len (s : State) (x : Nat) : (s.withLen x).len = x := rfl
@[simp] theorem State.withLen_fatal (s : State) (x : Nat) : (s.withLen x).fatal = s.fatal := rfl
@[simp] theorem State.withLen_cfg (s : State) (x : Nat) : (s.withLen x).cfg = s.cfg := rfl
@[simp] theorem State.withLen_sink (s : State) (x : Nat) : (s.withLen x).sink = s.sink := rfl
@[simp] theorem State.withLen_err (s : State) (x : Nat) : (s.withLen x).err = s.err := rfl
@[simp] theorem State.withLen_inputs (s : State) (x : Nat) : (s.withLen x).inputs = s.inputs := rfl
@[simp] theorem State.withLen_slots (s : State) (x : Nat) : (s.withLen x).slots = s.slots := rfl
@[simp] theorem State.withFatal_riseTs (s : State) (x : Bool) : (s.withFatal x).riseTs = s.riseTs := rfl
@[simp] theorem State.withFatal_phase (s : State) (x : Bool) : (s.withFatal x).phase = s.phase := rfl
@[simp] theorem State.withFatal_frameIndex (s : State) (x : Bool) : (s.withFatal x).frameIndex = s.frameIndex := rfl
@[simp] theorem State.withFatal_framePos (s : State) (x : Bool) : (s.withFatal x).framePos = s.framePos := rfl
@[simp] theorem State.withFatal_bitCount (s : State) (x : Bool) : (s.withFatal x).bitCount = s.bitCount := rfl
@[simp] theorem State.withFatal_bits (s : State) (x : Bool) : (s.withFatal x).bits = s.bits := rfl
@[simp] theorem State.withFatal_mem (s : State) (x : Bool) : (s.withFatal x).mem = s.mem := rfl
@[simp] theorem State.withFatal_len (s : State) (x : Bool) : (s.withFatal x).len = s.len := rfl
@[simp] theorem State.withFatal_fatal (s : State) (x : Bool) : (s.withFatal x).fatal = x := rfl
@[simp] theorem State.withFatal_cfg (s : State) (x : Bool) : (s.withFatal x).cfg = s.cfg := rfl
@[simp] theorem State.withFatal_sink (s : State) (x : Bool) : (s.withFatal x).sink = s.sink := rfl
@[simp] theorem State.withFatal_err (s : State) (x : Bool) : (s.withFatal x).err = s.err := rfl
@[simp] theorem State.withFatal_inputs (s : State) (x : Bool) : (s.withFatal x).inputs = s.inputs := rfl
@[simp] theorem State.withFatal_slots (s : State) (x : Bool) : (s.withFatal x).slots = s.slots := rfl
@[simp] theorem State.withCfg_riseTs (s : State) (x : Cfg) : (s.withCfg x).riseTs = s.riseTs := rfl
@[simp] theorem State.withCfg_phase (s : State) (x : Cfg) : (s.withCfg x).phase = s.phase := rfl
@[simp] theorem State.withCfg_frameIndex (s : State) (x : Cfg) : (s.withCfg x).frameIndex = s.frameIndex := rfl
@[simp] theorem State.withCfg_framePos (s : State) (x : Cfg) : (s.withCfg x).framePos = s.framePos := rfl
@[simp] theorem State.withCfg_bitCount (s : State) (x : Cfg) : (s.withCfg x).bitCount = s.bitCount := rfl
@[simp] theorem State.withCfg_bits (s : State) (x : Cfg) : (s.withCfg x).bits = s.bits := rfl
@[simp] theorem State.withCfg_mem (s : State) (x : Cfg) : (s.withCfg x).mem = s.mem := rfl
@[simp] theorem State.withCfg_len (s : State) (x : Cfg) : (s.withCfg x).len = s.len := rfl
@[simp] theorem State.withCfg_fatal (s : State) (x : Cfg) : (s.withCfg x).fatal = s.fatal := rfl
@[simp] theorem State.withCfg_cfg (s : State) (x : Cfg) : (s.withCfg x).cfg = x := rfl
@[simp] theorem State.withCfg_sink (s : State) (x : Cfg) : (s.withCfg x).sink = s.sink := rfl
@[simp] theorem State.withCfg_err (s : State) (x : Cfg) : (s.withCfg x).err = s.err := rfl
@[simp] theorem State.withCfg_inputs (s : State) (x : Cfg) : (s.withCfg x).inputs = s.inputs := rfl
@[simp] theorem State.withCfg_slots (s : State) (x : Cfg) : (s.withCfg x).slots = s.slots := rfl
@[simp] theorem State.withSink_riseTs (s : State) (x : List Text) : (s.withSink x).riseTs = s.riseTs := rfl
@[simp] theorem State.withSink_phase (s : State) (x : List Text) : (s.withSink x).phase = s.phase := rfl
@[simp] theorem State.withSink_frameIndex (s : State) (x : List Text) : (s.withSink x).frameIndex = s.frameIndex := rfl
@[simp] theorem State.withSink_framePos (s : State) (x : List Text) : (s.withSink x).framePos = s.framePos := rfl
@[simp] theorem State.withSink_bitCount (s : State) (x : List Text) : (s.withSink x).bitCount = s.bitCount := rfl
@[simp] theorem State.withSink_bits (s : State) (x : List Text) : (s.withSink x).bits = s.bits := rfl
@[simp] theorem State.withSink_mem (s : State) (x : List Text) : (s.withSink x).mem = s.mem := rfl
@[simp] theorem State.withSink_len (s : State) (x : List Text) : (s.withSink x).len = s.len := rfl
@[simp] theorem State.withSink_fatal (s : State) (x : List Text) : (s.withSink x).fatal = s.fatal := rfl
@[simp] theorem State.withSink_cfg (s : State) (x : List Text) : (s.withSink x).cfg = s.cfg := rfl
@[simp] theorem State.withSink_sink (s : State) (x : List Text) : (s.withSink x).sink = x := rfl
@[simp] theorem State.withSink_err (s : State) (x : List Text) : (s.withSink x).err = s.err := rfl
@[simp] theorem State.withSink_inputs (s : State) (x : List Text) : (s.withSink x).inputs = s.inputs := rfl
@[simp] theorem State.withSink_slots (s : State) (x : List Text) : (s.withSink x).slots = s.slots := rfl
@[simp] theorem State.withErr_riseTs (s : State) (x : List Warning) : (s.withErr x).riseTs = s.riseTs := rfl
@[simp] theorem State.withErr_phase (s : State) (x : List Warning) : (s.withErr x).phase = s.phase := rfl
@[simp] theorem State.withErr_frameIndex (s : State) (x : List Warning) : (s.withErr x).frameIndex = s.frameIndex := rfl
@[simp] theorem State.withErr_framePos (s : State) (x : List Warning) : (s.withErr x).framePos = s.framePos := rfl
@[simp] theorem State.withErr_bitCount (s : State) (x : List Warning) : (s.withErr x).bitCount = s.bitCount := rfl
@[simp] theorem State.withErr_bits (s : State) (x : List Warning) : (s.withErr x).bits = s.bits := rfl
@[simp] theorem State.withErr_mem (s : State) (x : List Warning) : (s.withErr x).mem = s.mem := rfl
@[simp] theorem State.withErr_len (s : State) (x : List Warning) : (s.withErr x).len = s.len := rfl
@[simp] theorem State.withErr_fatal (s : State) (x : List Warning) : (s.withErr x).fatal = s.fatal := rfl
@[simp] theorem State.withErr_cfg (s : State) (x : List Warning) : (s.withErr x).cfg = s.cfg := rfl
@[simp] theorem State.withErr_sink (s : State) (x : List Warning) : (s.withErr x).sink = s.sink := rfl
@[simp] theorem State.withErr_err (s : State) (x : List Warning) : (s.withErr x).err = x := rfl
@[simp] theorem State.withErr_inputs (s : State) (x : List Warning) : (s.withErr x).inputs = s.inputs := rfl
@[simp] theorem State.withErr_slots (s : State) (x : List Warning) : (s.withErr x).slots = s.slots := rfl
@[simp] theorem State.withInputs_riseTs (s : State) (x : List Stimulus) : (s.withInputs x).riseTs = s.riseTs := rfl
@[simp] theorem State.withInputs_phase (s : State) (x : List Stimulus) : (s.withInputs x).phase = s.phase := rfl
@[simp] theorem State.withInputs_frameIndex (s : State) (x : List Stimulus) : (s.withInputs x).frameIndex = s.frameIndex := rfl
@[simp] theorem State.withInputs_framePos (s : State) (x : List Stimulus) : (s.withInputs x).framePos = s.framePos := rfl
@[simp] theorem State.withInputs_bitCount (s : State) (x : List Stimulus) : (s.withInputs x).bitCount = s.bitCount := rfl
@[simp] theorem State.withInputs_bits (s : State) (x : List Stimulus) : (s.withInputs x).bits = s.bits := rfl
@[simp] theorem State.withInputs_mem (s : State) (x : List Stimulus) : (s.withInputs x).mem = s.mem := rfl
@[simp] theorem State.withInputs_len (s : State) (x : List Stimulus) : (s.withInputs x).len = s.len := rfl
@[simp] theorem State.withInputs_fatal (s : State) (x : List Stimulus) : (s.withInputs x).fatal = s.fatal := rfl
@[simp] theorem State.withInputs_cfg (s : State) (x : List Stimulus) : (s.withInputs x).cfg = s.cfg := rfl
@[simp] theorem State.withInputs_sink (s : State) (x : List Stimulus) : (s.withInputs x).sink = s.sink := rfl
@[simp] theorem State.withInputs_err (s : State) (x : List Stimulus) : (s.withInputs x).err = s.err := rfl
@[simp] theorem State.withInputs_inputs (s : State) (x : List Stimulus) : (s.withInputs x).inputs = x := rfl
@[simp] theorem State.withInputs_slots (s : State) (x : List Stimulus) : (s.withInputs x).slots = s.slots := rfl
@[simp] theorem State.withSlots_riseTs (s : State) (x : List Bool) : (s.withSlots x).riseTs = s.riseTs := rfl
@[simp] theorem State.withSlots_phase (s : State) (x : List Bool) : (s.withSlots x).phase = s.phase := rfl
@[simp] theorem State.withSlots_frameIndex (s : State) (x : List Bool) : (s.withSlots x).frameIndex = s.frameIndex := rfl
@[simp] theorem State.withSlots_framePos (s : State) (x : List Bool) : (s.withSlots x).framePos = s.framePos := rfl
@[simp] theorem State.withSlots_bitCount (s : State) (x : List Bool) : (s.withSlots x).bitCount = s.bitCount := rfl
@[simp] theorem State.withSlots_bits (s : State) (x : List Bool) : (s.withSlots x).bits = s.bits := rfl
@[simp] theorem State.withSlots_mem (s : State) (x : List Bool) : (s.withSlots x).mem = s.mem := rfl
@[simp] theorem State.withSlots_len (s : State) (x : List Bool) : (s.withSlots x).len = s.len := rfl
@[simp] theorem State.withSlots_fatal (s : State) (x : List Bool) : (s.withSlots x).fatal = s.fatal := rfl
@[simp] theorem State.withSlots_cfg (s : State) (x : List Bool) : (s.withSlots x).cfg = s.cfg := rfl
@[simp] theorem State.withSlots_sink (s : State) (x : List Bool) : (s.withSlots x).sink = s.sink := rfl
@[simp] theorem State.withSlots_err (s : State) (x : List Bool) : (s.withSlots x).err = s.err := rfl
@[simp] theorem State.withSlots_inputs (s : State) (x : List Bool) : (s.withSlots x).inputs = s.inputs := rfl
@[simp] theorem State.withSlots_slots (s : State) (x : List Bool) : (s.withSlots x).slots = x := rfl
@[simp] theorem State.zeroCounters_riseTs (s : State) : s.zeroCounters.riseTs = s.riseTs := rfl
@[simp] theorem State.zeroCounters_phase (s : State) : s.zeroCounters.phase = s.phase := rfl
@[simp] theorem State.zeroCounters_frameIndex (s : State) : s.zeroCounters.frameIndex = 0 := rfl
@[simp] theorem State.zeroCounters_framePos (s : State) : s.zeroCounters.framePos = 0 := rfl
@[simp] theorem State.zeroCounters_bitCount (s : State) : s.zeroCounters.bitCount = 0 := rfl
@[simp] theorem State.zeroCounters_bits (s : State) : s.zeroCounters.bits = s.bits := rfl
@[simp] theorem State.zeroCounters_mem (s : State) : s.zeroCounters.mem = s.mem := rfl
@[simp] theorem State.zeroCounters_len (s : State) : s.zeroCounters.len = s.len := rfl
@[simp] theorem State.zeroCounters_fatal (s : State) : s.zeroCounters.fatal = s.fatal := rfl
@[simp] theorem State.zeroCounters_cfg (s : State) : s.zeroCounters.cfg = s.cfg := rfl
@[simp] theorem State.zeroCounters_sink (s : State) : s.zeroCounters.sink = s.sink := rfl
@[simp] theorem State.zeroCounters_err (s : State) : s.zeroCounters.err = s.err := rfl
@[simp] theorem State.zeroCounters_inputs (s : State) : s.zeroCounters.inputs = s.inputs := rfl
@[simp] theorem State.zeroCounters_slots (s : State) : s.zeroCounters.slots = s.slots := rfl
@[simp] theorem fullReset_riseTs (s : State) : (fullReset s).riseTs = s.riseTs := rfl
@[simp] theorem fullReset_phase (s : State) : (fullReset s).phase = .idle := rfl
@[simp] theorem fullReset_frameIndex (s : State) : (fullReset s).frameIndex = 0 := rfl
@[simp] theorem fullReset_framePos (s : State) : (fullReset s).framePos = 0 := rfl
@[simp] theorem fullReset_bitCount (s : State) : (fullReset s).bitCount = 0 := rfl
@[simp] theorem fullReset_bits (s : State) : (fullReset s).bits = s.bits := rfl
@[simp] theorem fullReset_mem (s : State) : (fullReset s).mem = s.mem := rfl
@[simp] theorem fullReset_len (s : State) : (fullReset s).len = s.len := rfl
@[simp] theorem fullReset_fatal (s : State) : (fullReset s).fatal = s.fatal := rfl
@[simp] theorem fullReset_cfg (s : State) : (fullReset s).cfg = s.cfg := rfl
@[simp] theorem fullReset_sink (s : State) : (fullReset s).sink = s.sink := rfl
@[simp] theorem fullReset_err (s : State) : (fullReset s).err = s.err := rfl
@[simp] theorem fullReset_inputs (s : State) : (fullReset s).inputs = s.inputs := rfl
@[simp] theorem fullReset_slots (s : State) : (fullReset s).slots = s.slots := rfl
@[simp] theorem raiseWarn_riseTs (c : WarnCode) (d : Ts) (s : State) : (raiseWarn c d s).riseTs = s.riseTs := rfl
@[simp] theorem raiseWarn_phase (c : WarnCode) (d : Ts) (s : State) : (raiseWarn c d s).phase = s.phase := rfl
@[simp] theorem raiseWarn_frameIndex (c : WarnCode) (d : Ts) (s : State) : (raiseWarn c d s).frameIndex = s.frameIndex := rfl
@[simp] theorem raiseWarn_framePos (c : WarnCode) (d : Ts) (s : State) : (raiseWarn c d s).framePos = s.framePos := rfl
@[simp] theorem raiseWarn_bitCount (c : WarnCode) (d : Ts) (s : State) : (raiseWarn c d s).bitCount = s.bitCount := rfl
@[simp] theorem raiseWarn_bits (c : WarnCode) (d : Ts) (s : State) : (raiseWarn c d s).bits = s.bits := rfl
@[simp] theorem raiseWarn_mem (c : WarnCode) (d : Ts) (s : State) : (raiseWarn c d s).mem = s.mem := rfl
@[simp] theorem raiseWarn_len (c : WarnCode) (d : Ts) (s : State) : (raiseWarn c d s).len = s.len := rfl
@[simp] theorem raiseWarn_fatal (c : WarnCode) (d : Ts) (s : State) : (raiseWarn c d s).fatal = s.fatal := rfl
@[simp] theorem raiseWarn_cfg (c : WarnCode) (d : Ts) (s : State) : (raiseWarn c d s).cfg = s.cfg := rfl
@[simp] theorem raiseWarn_sink (c : WarnCode) (d : Ts) (s : State) : (raiseWarn c d s).sink = s.sink := rfl
@[simp] theorem raiseWarn_err (c : WarnCode) (d : Ts) (s : State) : (raiseWarn c d s).err = s.err ++ [⟨c, d⟩] := rfl
@[simp] theorem raiseWarn_inputs (c : WarnCode) (d : Ts) (s : State) : (raiseWarn c d s).inputs = s.inputs := rfl
@[simp] theorem raiseWarn_slots (c : WarnCode) (d : Ts) (s : State) : (raiseWarn c d s).slots = s.slots := rfl

@[simp] theorem Flow.andThen_done (s : State) (f : State → Flow) : (Flow.done s).andThen f = f s := rfl
@[simp] theorem Flow.andThen_halted (s : State) (f : State → Flow) : (Flow.halted s).andThen f = .halted s := rfl
@[simp] theorem Flow.andThen_fault (e : Fault) (f : State → Flow) : (Flow.fault e).andThen f = .fault e := rfl
@[simp] theorem Flow.outcome_done (s : State) : (Flow.done s).outcome = .next s := rfl
@[simp] theorem Flow.outcome_halted (s : State) : (Flow.halted s).outcome = .next s := rfl
@[simp] theorem Flow.outcome_fault (e : Fault) : (Flow.fault e).outcome = .fault e := rfl

end Sys2Proof.Machine
end

