-- ==== Sys2Proof/Laws/Output.lean ====
section
/-! SUPPORT. The buffer seen as texts: the laws of `Output`, and where its bursts begin and end. -/

namespace Sys2Proof.Machine

@[simp] theorem State.output_sink (s : State) : s.output.sink = s.sink := rfl
@[simp] theorem State.output_waiting (s : State) : s.output.waiting = s.bufText := rfl
@[simp] theorem State.bufText_length (s : State) : s.bufText.length = s.len := by simp [State.bufText]

@[simp] theorem Output.flush_waiting (o : Output) : o.flush.waiting = [] := by unfold Output.flush; split <;> simp_all

theorem Output.flush_of_empty {o : Output} (h : o.waiting = []) : o.flush = o := if_pos h

@[simp] theorem Output.flush_flush (o : Output) : o.flush.flush = o.flush := Output.flush_of_empty o.flush_waiting

@[simp] theorem Output.finish_false (o : Output) : o.finish false = o := rfl
@[simp] theorem Output.finish_true (o : Output) : o.finish true = o.flush := rfl

theorem Output.flush_finish (o : Output) (e : Bool) : o.flush.finish e = o.flush := by cases e <;> simp

theorem Output.run_nil (cap : Nat) (ps : List Bool) (o : Output) : Output.run cap [] ps o = o := rfl

/-- While everything fits and no FLUSH is placed, the texts only join the waiting text. -/
theorem Output.run_of_fits (cap : Nat) (ts : List Text) (o : Output) (h : o.waiting.length + ts.flatten.length ≤ cap) :
    Output.run cap ts [] o = ⟨o.sink, o.waiting ++ ts.flatten⟩ := by
  induction ts generalizing o with
  | nil => simp [Output.run]
  | cons t ts ih =>
    simp only [List.flatten_cons, List.length_append] at h
    have h1 : t.length ≤ cap := by omega
    have h2 : o.waiting.length + t.length ≤ cap := by omega
    simp only [Output.run, h1, if_true, List.tail_nil, List.head?_nil, Output.append, h2]
    rw [if_neg (by simp), ih _ (by simp only [List.length_append]; omega)]
    simp

/-- A flush adds at most one burst, the waiting text. -/
theorem Output.flush_sink (o : Output) : ∃ bs, o.flush.sink = o.sink ++ bs ∧ (bs = [] ∨ bs = [o.waiting]) := by
  unfold Output.flush
  split
  · exact ⟨[], by simp, .inl rfl⟩
  · exact ⟨[o.waiting], rfl, .inr rfl⟩

end Sys2Proof.Machine
end

