-- ==== Sys2Proof/Laws/Buffer.lean ====
section
/-! SUPPORT. What the buffer operations can do, said once: Flush (44 R141), Append (44 R140), the FLUSHER's point (20 R47), and the handing of
one fragment to the buffer. -/

namespace Sys2Proof.Machine

theorem SameRegs.refl (s : State) : SameRegs s s := ⟨rfl, rfl, rfl, rfl, rfl, rfl, rfl, rfl, rfl⟩

theorem SameRegs.trans {s t u : State} (h : SameRegs s t) (k : SameRegs t u) : SameRegs s u :=
  ⟨k.1.trans h.1, k.2.trans h.2, k.3.trans h.3, k.4.trans h.4, k.5.trans h.5, k.6.trans h.6, k.7.trans h.7, k.8.trans h.8,
    k.9.trans h.9⟩

theorem State.Inv.bufInv {s : State} (h : s.Inv) : BufInv s := ⟨h.lenMax, h.bursts, h.memWf, h.memRange⟩

/-! ### Flush -/

theorem flush_eq {s : State} (h : s.len ≤ s.cfg.cap) : flush s = .done s.flushed := by
  unfold flush State.flushed memRead
  split
  · simp [h, State.bufText]
  · rfl

@[simp] theorem flushed_len (s : State) : s.flushed.len = 0 := by
  unfold State.flushed; split <;> simp_all

@[simp] theorem flushed_mem (s : State) : s.flushed.mem = s.mem := by unfold State.flushed; split <;> rfl
@[simp] theorem flushed_fatal (s : State) : s.flushed.fatal = s.fatal := by unfold State.flushed; split <;> rfl
@[simp] theorem flushed_slots (s : State) : s.flushed.slots = s.slots := by unfold State.flushed; split <;> rfl
@[simp] theorem flushed_cfg (s : State) : s.flushed.cfg = s.cfg := by unfold State.flushed; split <;> rfl

theorem flushed_regs (s : State) : SameRegs s s.flushed := by unfold State.flushed; split <;> constructor <;> rfl

theorem flushed_sink (s : State) : s.flushed.sink = s.sink ∨ s.flushed.sink = s.sink ++ [s.bufText] := by
  unfold State.flushed; split
  · exact .inr rfl
  · exact .inl rfl

theorem flushed_grows (s : State) : s.sink <+: s.flushed.sink := by
  rcases flushed_sink s with h | h <;> rw [h]
  · exact List.prefix_append _ _

/-- A flush moves text to the sink and shows nothing new (20 R48). -/
@[simp] theorem flushed_shown (s : State) : s.flushed.shown = s.shown := by
  unfold State.flushed
  split
  · simp [State.shown, State.bufText, Memory.readSpan]
  · rfl

/-- A flush, seen as texts. -/
@[simp] theorem flushed_output (s : State) : s.flushed.output = s.output.flush := by
  have h : s.bufText = [] ↔ ¬0 < s.len := by rw [← List.length_eq_zero_iff, State.bufText_length]; omega
  unfold State.flushed Output.flush
  simp only [State.output_waiting, h]
  split <;> simp_all [State.output, State.bufText, Memory.readSpan]

theorem flushed_bufInv {s : State} (h : BufInv s) : BufInv s.flushed := by
  refine ⟨by simp, ?_, by simpa using h.memWf, by simpa using h.memRange⟩
  unfold State.flushed
  split
  · rename_i hl
    simp only [State.withLen_sink, State.withSink_sink, List.mem_append, List.mem_singleton, State.withLen_cfg, State.withSink_cfg]
    rintro b (hb | rfl)
    · exact h.bursts b hb
    · refine ⟨?_, by simpa [State.bufText] using h.lenMax⟩
      intro hn
      have := congrArg List.length hn
      simp [State.bufText] at this
      omega
  · exact h.bursts

/-! ### Append -/

/-- The state after a fragment is written at the cursor (44 R140, last two lines). -/
def State.written (s : State) (t : Text) : State := (s.withMem (s.mem.writeSpan s.len t)).withLen (s.len + t.length)

theorem writeAtCursor_eq {s : State} {t : Text} (h : s.len + t.length ≤ s.cfg.cap) : writeAtCursor t s = .done (s.written t) := by
  simp [writeAtCursor, memWrite, h, State.written]

/-- `Append`, case by case (44 R140, R143, R144). -/
theorem append_cases (t : Text) {s : State} (h : s.len ≤ s.cfg.cap) :
    (s.len + t.length ≤ s.cfg.cap ∧ append t s = .done (s.written t)) ∨
    (s.cfg.cap < s.len + t.length ∧ t.length ≤ s.cfg.cap ∧ append t s = .done (s.flushed.written t)) ∨
    (s.cfg.cap < t.length ∧ append t s = .halted (s.flushed.withFatal true)) := by
  by_cases h1 : s.len + t.length ≤ s.cfg.cap
  · left
    refine ⟨h1, ?_⟩
    simp only [append, Nat.not_lt.mpr h1, if_false]
    exact writeAtCursor_eq h1
  · right
    have h1' : s.cfg.cap < s.len + t.length := Nat.lt_of_not_le h1
    by_cases h2 : t.length ≤ s.cfg.cap
    · left
      refine ⟨h1', h2, ?_⟩
      simp only [append, h1', if_true, flush_eq h, Flow.andThen_done, flushed_len, flushed_cfg, Nat.zero_add, Nat.not_lt.mpr h2, if_false]
      exact writeAtCursor_eq (by simpa using h2)
    · right
      have h2' : s.cfg.cap < t.length := Nat.lt_of_not_le h2
      refine ⟨h2', ?_⟩
      simp only [append, h1', if_true, flush_eq h, Flow.andThen_done, flushed_len, flushed_cfg, Nat.zero_add, h2', raiseFatal]

theorem written_regs (s : State) (t : Text) : SameRegs s (s.written t) := by constructor <;> rfl

theorem written_shown {s : State} (h : BufInv s) (t : Text) : (s.written t).shown = s.shown ++ t := by
  simp [State.shown, State.bufText, State.written, Memory.readSpan_writeSpan_append t s.mem s.len h.memWf]

/-- A write at the cursor, seen as texts. -/
theorem written_output {s : State} (h : BufInv s) (t : Text) : (s.written t).output = ⟨s.sink, s.bufText ++ t⟩ := by
  simp [State.output, State.bufText, State.written, Memory.readSpan_writeSpan_append t s.mem s.len h.memWf]

theorem written_bufInv {s : State} (h : BufInv s) {t : Text} (ht : s.len + t.length ≤ s.cfg.cap) : BufInv (s.written t) := by
  refine ⟨by simpa [State.written] using ht, by simpa [State.written] using h.bursts,
    by simpa [State.written] using Memory.wf_writeSpan t _ _ h.memWf, ?_⟩
  intro c hc
  simp only [State.written, State.withLen_mem, State.withMem_mem, State.withLen_cfg, State.withMem_cfg] at hc ⊢
  rcases Memory.mem_writeSpan t _ _ hc with hc | hc
  · exact h.memRange c hc
  · omega

/-! ### The FLUSHER's point -/

/-- After a completed buffer step the FLUSHER either leaves the buffer alone or flushes it (20 R47). -/
theorem grantPoint_cases {s : State} (h : s.len ≤ s.cfg.cap) (hf : s.fatal = false) :
    (s.slots.head? ≠ some true ∧ grantPoint s = .done (s.withSlots s.slots.tail)) ∨
    (s.slots.head? = some true ∧ grantPoint s = .done (s.flushed.withSlots s.slots.tail)) := by
  unfold grantPoint
  split
  · rename_i hs; left; rw [hs]; exact ⟨by simp, congrArg Flow.done (by rw [List.tail_nil, ← hs]; rfl)⟩
  · rename_i hs; left; simp [hs]
  · rename_i rest hs
    right
    refine ⟨by simp [hs], ?_⟩
    have : (s.withSlots rest).len ≤ (s.withSlots rest).cfg.cap := h
    simp only [flusherFlush, State.withSlots_fatal, hf, Bool.false_eq_true, if_false, flush_eq this, hs, List.tail_cons]
    by_cases hl : 0 < s.len
    · simp only [State.flushed, State.withSlots_len, hl, if_true]; rfl
    · simp only [State.flushed, State.withSlots_len, hl, if_false]

theorem grantPoint_nil {s : State} (h : s.slots = []) : grantPoint s = .done s := by simp [grantPoint, h]

/-- Changing the placements changes nothing of the buffer. -/
theorem withSlots_bufInv {s : State} (h : BufInv s) (l : List Bool) : BufInv (s.withSlots l) := ⟨h.1, h.2, h.3, h.4⟩

/-! ### One fragment -/

/-- What handing one fragment to the buffer does when it completes. -/
structure Emitted (f : Fragment) (s t : State) : Prop where
  regs : SameRegs s t
  bufInv : BufInv t
  fatal : t.fatal = false
  slots : t.slots = s.slots.tail
  len : t.len = if s.slots.head? = some true then 0 else appendAddr (fragmentText s.cfg f) s + (fragmentText s.cfg f).length
  shown : t.shown = s.shown ++ fragmentText s.cfg f
  output : t.output = if s.slots.head? = some true then (s.output.append s.cfg.cap (fragmentText s.cfg f)).flush
    else s.output.append s.cfg.cap (fragmentText s.cfg f)
  grows : s.sink <+: t.sink
  atMostTwo : t.sink.length ≤ s.sink.length + 2
  atMostOne : s.slots = [] → t.sink.length ≤ s.sink.length + 1
  cells : ∀ a, ¬(appendAddr (fragmentText s.cfg f) s ≤ a ∧ a < appendAddr (fragmentText s.cfg f) s + (fragmentText s.cfg f).length) →
    t.mem.read a = s.mem.read a

/-- What it does when the fragment is oversized (44 R143, 60 R163). -/
structure Overflowed (s t : State) : Prop where
  regs : SameRegs s t
  bufInv : BufInv t
  fatal : t.fatal = true
  len : t.len = 0
  slots : t.slots = s.slots
  shown : t.shown = s.shown
  output : t.output = s.output.flush
  grows : s.sink <+: t.sink
  atMostOne : t.sink.length ≤ s.sink.length + 1
  mem : t.mem = s.mem

theorem flushed_sink_length (s : State) : s.flushed.sink.length ≤ s.sink.length + 1 := by
  rcases flushed_sink s with h | h <;> simp [h]

/-- The state after the write is one of two; the point after it changes at most the placements, the cursor and the sink. -/
theorem emit_after_append {f : Fragment} {s u : State} (hu : BufInv u) (hfu : u.fatal = false) (hr : SameRegs s u) (hsl : u.slots = s.slots)
    (hsh : u.shown = s.shown ++ fragmentText s.cfg f) (ho : u.output = s.output.append s.cfg.cap (fragmentText s.cfg f)) (hg : s.sink <+: u.sink) (hn : u.sink.length ≤ s.sink.length + 1)
    (hl : u.len = appendAddr (fragmentText s.cfg f) s + (fragmentText s.cfg f).length)
    (hc : ∀ a, ¬(appendAddr (fragmentText s.cfg f) s ≤ a ∧ a < appendAddr (fragmentText s.cfg f) s + (fragmentText s.cfg f).length) →
      u.mem.read a = s.mem.read a) :
    ∃ t, grantPoint u = .done t ∧ Emitted f s t := by
  rcases grantPoint_cases hu.lenMax hfu with ⟨hd, h⟩ | ⟨hd, h⟩
  · rw [hsl] at hd
    refine ⟨_, h, hr.trans ⟨rfl, rfl, rfl, rfl, rfl, rfl, rfl, rfl, rfl⟩, withSlots_bufInv hu _, hfu, by simp [hsl], ?_, hsh,
      by rw [if_neg hd]; exact ho, hg, ?_,
      fun _ => hn, hc⟩
    · simpa [hd] using hl
    · exact hn.trans (by omega)
  · rw [hsl] at hd
    refine ⟨_, h, (hr.trans (flushed_regs u)).trans ⟨rfl, rfl, rfl, rfl, rfl, rfl, rfl, rfl, rfl⟩, withSlots_bufInv (flushed_bufInv hu) _,
      by simpa using hfu, by simp [hsl], by simp [hd], (flushed_shown u).trans hsh,
      by rw [if_pos hd, ← ho, ← flushed_output]; rfl, hg.trans (flushed_grows u), ?_, ?_, ?_⟩
    · have := flushed_sink_length u
      simp only [State.withSlots_sink]
      omega
    · intro h0; rw [h0] at hd; simp at hd
    · intro a ha; simpa using hc a ha

/-- Handing one fragment to the buffer: it completes and the shown text grows by it, or it is oversized and the core halts with nothing of
it written. -/
theorem emit_cases (f : Fragment) {s : State} (h : BufInv s) (hf : s.fatal = false) :
    (fits s.cfg f = true ∧ ∃ t, emit f s = .done t ∧ Emitted f s t) ∨
    (fits s.cfg f = false ∧ ∃ t, emit f s = .halted t ∧ Overflowed s t) := by
  unfold emit
  rcases append_cases (fragmentText s.cfg f) h.lenMax with ⟨h1, h2⟩ | ⟨h1, h2, h3⟩ | ⟨h1, h2⟩
  · left
    refine ⟨by simp [fits]; omega, ?_⟩
    rw [h2, Flow.andThen_done]
    refine emit_after_append (written_bufInv h h1) hf (written_regs s _) rfl (written_shown h _) ?_ (List.prefix_refl _) (by simp [State.written]) ?_ ?_
    · rw [written_output h, Output.append, if_pos (by simpa using h1)]; rfl
    · rw [appendAddr, if_neg (Nat.not_lt.mpr h1)]; rfl
    intro a ha
    rw [appendAddr, if_neg (Nat.not_lt.mpr h1)] at ha
    exact Memory.read_writeSpan_outside _ _ _ _ ha
  · left
    refine ⟨by simpa [fits] using h2, ?_⟩
    rw [h3, Flow.andThen_done]
    have hb := flushed_bufInv h
    refine emit_after_append (written_bufInv hb (by simpa using h2)) (by simpa [State.written] using hf)
      ((flushed_regs s).trans (written_regs _ _)) (by simp [State.written]) ?_ ?_ (by simpa [State.written] using flushed_grows s)
      (by simpa [State.written] using flushed_sink_length s) ?_ ?_
    · rw [written_shown hb, flushed_shown]
    · rw [written_output hb, Output.append, if_neg (by simpa using h1)]
      have hw : s.flushed.bufText = [] := by rw [← State.output_waiting, flushed_output, Output.flush_waiting]
      rw [hw, List.nil_append, ← State.output_sink, flushed_output]
    · rw [appendAddr, if_pos h1]; simp [State.written]
    · intro a ha
      rw [appendAddr, if_pos h1] at ha
      simp only [State.written, State.withLen_mem, State.withMem_mem, flushed_mem, flushed_len]
      exact Memory.read_writeSpan_outside _ _ _ _ ha
  · right
    refine ⟨by simp [fits]; omega, _, by rw [h2]; rfl, ?_⟩
    have hb := flushed_bufInv h
    exact ⟨(flushed_regs s).trans ⟨rfl, rfl, rfl, rfl, rfl, rfl, rfl, rfl, rfl⟩, ⟨hb.1, hb.2, hb.3, hb.4⟩, rfl, by simp, by simp, flushed_shown s, flushed_output s,
      flushed_grows s, flushed_sink_length s, by simp⟩

end Sys2Proof.Machine
end

