-- ==== Sys2Proof/Laws/Run.lean ====
section
/-! SUPPORT. How a run of fragments composes: `Ran e fs s r post` says that the flow `r`, started in `s`, hands exactly the fragments `fs` to the
buffer in order, flushes after them if `e`, and ends (completed, or halted at the first oversized fragment) in a state with `post`. Every
handler is one `Ran`. -/

namespace Sys2Proof.Machine

/-- The same output buffer, straps and placements; the other registers are free. -/
structure SameBuf (s t : State) : Prop where
  cfg : t.cfg = s.cfg
  mem : t.mem = s.mem
  len : t.len = s.len
  fatal : t.fatal = s.fatal
  sink : t.sink = s.sink
  slots : t.slots = s.slots

theorem SameBuf.refl (s : State) : SameBuf s s := ⟨rfl, rfl, rfl, rfl, rfl, rfl⟩

theorem SameBuf.trans {s t u : State} (h : SameBuf s t) (k : SameBuf t u) : SameBuf s u :=
  ⟨k.1.trans h.1, k.2.trans h.2, k.3.trans h.3, k.4.trans h.4, k.5.trans h.5, k.6.trans h.6⟩

theorem SameBuf.shown {s t : State} (h : SameBuf s t) : t.shown = s.shown := by
  simp [State.shown, State.bufText, h.sink, h.mem, h.len]

theorem SameBuf.output {s t : State} (h : SameBuf s t) : t.output = s.output := by
  simp [State.output, State.bufText, h.sink, h.mem, h.len]

theorem SameBuf.bufInv {s t : State} (h : SameBuf s t) (hs : BufInv s) : BufInv t :=
  ⟨by rw [h.len, h.cfg]; exact hs.1, by rw [h.sink, h.cfg]; exact hs.2, by rw [h.mem]; exact hs.3, by rw [h.mem, h.cfg]; exact hs.4⟩

theorem appendAddr_congr (t : Text) {s u : State} (hc : u.cfg = s.cfg) (hl : u.len = s.len) : appendAddr t u = appendAddr t s := by
  simp [appendAddr, hc, hl]

/-- The spans depend only on the capacity and texts, the cursor and the placements. -/
theorem spans_congr (fs : List Fragment) {s u : State} (hs : BufInv s) (hu : BufInv u) (hfs : s.fatal = false) (hfu : u.fatal = false)
    (hc : u.cfg = s.cfg) (hl : u.len = s.len) (hsl : u.slots = s.slots) : spans fs u = spans fs s := by
  induction fs generalizing s u with
  | nil => rfl
  | cons f fs ih =>
    rcases emit_cases f hs hfs with ⟨h1, t, h2, h3⟩ | ⟨h1, t, h2, -⟩ <;> rcases emit_cases f hu hfu with ⟨k1, v, k2, k3⟩ | ⟨k1, v, k2, -⟩
    · simp only [spans, h2, k2, hc, appendAddr_congr _ hc hl]
      congr 1
      refine ih h3.bufInv k3.bufInv h3.fatal k3.fatal (k3.regs.cfg.trans (hc.trans h3.regs.cfg.symm)) ?_ ?_
      · rw [k3.len, h3.len, hsl, hc, appendAddr_congr _ hc hl]
      · rw [k3.slots, h3.slots, hsl]
    · rw [hc, h1] at k1; cases k1
    · rw [hc, h1] at k1; cases k1
    · simp only [spans, h2, k2]

/-- One flow, its fragments, and what holds at its end. -/
structure RanTo (e : Bool) (fs : List Fragment) (s : State) (r : Flow) (t : State) : Prop where
  ends : (r = .done t ∧ t.fatal = false) ∨ (r = .halted t ∧ t.fatal = true ∧ t.len = 0)
  appended : Appended fs s t
  output : t.output = (s.output.run s.cfg.cap (fs.map (fragmentText s.cfg)) s.slots).finish e
  bufInv : BufInv t
  cfg : t.cfg = s.cfg
  slots : t.slots = s.slots.drop (fs.takeWhile (fits s.cfg)).length
  bursts : s.slots = [] → t.sink.length ≤ s.sink.length + fs.length + 1

/-- The flow `r` from `s` hands the fragments `fs` to the buffer, flushes after them if `e`, and ends with `post`. -/
def Ran (e : Bool) (fs : List Fragment) (s : State) (r : Flow) (post : State → Prop) : Prop := ∃ t, RanTo e fs s r t ∧ post t

theorem Ran.outcome {e : Bool} {fs : List Fragment} {s : State} {r : Flow} {post : State → Prop} (h : Ran e fs s r post) :
    ∃ t, r.outcome = .next t ∧ RanTo e fs s r t ∧ post t := by
  obtain ⟨t, ht, hp⟩ := h
  refine ⟨t, ?_, ht, hp⟩
  rcases ht.ends with ⟨h, -⟩ | ⟨h, -⟩ <;> rw [h] <;> rfl

theorem Ran.imp {e : Bool} {fs : List Fragment} {s : State} {r : Flow} {post post' : State → Prop} (h : Ran e fs s r post) (hp : ∀ t, post t → post' t) :
    Ran e fs s r post' := by
  obtain ⟨t, ht, hpt⟩ := h
  exact ⟨t, ht, hp t hpt⟩

/-- No fragment: nothing of the buffer changes. -/
theorem Ran.done {s t : State} {post : State → Prop} (hb : BufInv s) (hf : s.fatal = false) (h : SameBuf s t) (hp : post t) :
    Ran false [] s (.done t) post := by
  refine ⟨t, ⟨.inl ⟨rfl, h.fatal.trans hf⟩, ⟨by simp [h.shown], by simp [h.fatal, hf], fun a _ => by rw [h.mem], by rw [h.sink]⟩,
    by simp [h.output, Output.run], h.bufInv hb, h.cfg, by simp [h.slots], fun _ => by rw [h.sink]; simp⟩, hp⟩

/-- The flow may be started in any state with the same buffer. -/
theorem Ran.rebase {e : Bool} {fs : List Fragment} {s u : State} {r : Flow} {post : State → Prop} (hb : BufInv s) (hf : s.fatal = false)
    (h : SameBuf s u) (hr : Ran e fs u r post) : Ran e fs s r post := by
  obtain ⟨t, ht, hp⟩ := hr
  refine ⟨t, ⟨ht.ends, ⟨?_, ?_, ?_, ?_⟩, by rw [ht.output, h.output, h.cfg, h.slots], ht.bufInv, ht.cfg.trans h.cfg, ?_, ?_⟩, hp⟩
  · rw [ht.appended.text, h.shown, h.cfg]
  · rw [ht.appended.fatal, h.cfg]
  · intro a ha
    rw [ht.appended.cells a, h.mem]
    rwa [spans_congr fs hb (h.bufInv hb) hf (h.fatal.trans hf) h.cfg h.len h.slots]
  · rw [← h.sink]; exact ht.appended.sink
  · rw [ht.slots, h.slots, h.cfg]
  · intro h0; rw [← h.sink]; exact ht.bursts (h.slots.trans h0)

/-- One fragment, then the rest. -/
theorem Ran.emit {f : Fragment} {e : Bool} {fs : List Fragment} {s : State} {k : State → Flow} {post : State → Prop} (hb : BufInv s) (hf : s.fatal = false)
    (hk : ∀ t, fits s.cfg f = true → Emitted f s t → Ran e fs t (k t) post) (ho : ∀ t, fits s.cfg f = false → Overflowed s t → post t) :
    Ran e (f :: fs) s ((emit f s).andThen k) post := by
  rcases emit_cases f hb hf with ⟨h1, u, h2, h3⟩ | ⟨h1, u, h2, h3⟩
  · obtain ⟨t, ht, hp⟩ := hk u h1 h3
    have hc := h3.regs.cfg
    refine ⟨t, ⟨?_, ⟨?_, ?_, ?_, ?_⟩, ?_, ht.bufInv, ht.cfg.trans hc, ?_, ?_⟩, hp⟩
    · rw [h2]; exact ht.ends
    · rw [ht.appended.text, h3.shown, hc]; simp [h1]
    · rw [ht.appended.fatal, hc]; simp [h1]
    · intro a ha
      simp only [spans, h2, outside, List.mem_cons, forall_eq_or_imp] at ha
      rw [ht.appended.cells a ha.2, h3.cells a ha.1]
    · exact h3.grows.trans ht.appended.sink
    · rw [ht.output, h3.output, h3.slots, hc]
      simp only [fits, decide_eq_true_eq] at h1
      simp only [List.map_cons, Output.run, h1, if_true]
    · rw [ht.slots, h3.slots, hc]; simp [h1]
    · intro h0
      have := ht.bursts (by rw [h3.slots, h0]; rfl)
      have := h3.atMostOne h0
      simp only [List.length_cons]; omega
  · refine ⟨u, ⟨.inr ⟨by rw [h2]; rfl, h3.fatal, h3.len⟩, ⟨?_, ?_, ?_, h3.grows⟩, ?_, h3.bufInv, h3.regs.cfg, ?_, ?_⟩, ho u h1 h3⟩
    · rw [h3.shown]; simp [h1]
    · rw [h3.fatal]; simp [h1]
    · intro a _; rw [h3.mem]
    · rw [h3.output]
      simp only [fits, decide_eq_false_iff_not] at h1
      simp only [List.map_cons, Output.run, h1, if_false, Output.flush_finish]
    · rw [h3.slots]; simp [h1]
    · intro _
      have := h3.atMostOne
      omega

/-- One fragment and nothing after it. -/
theorem Ran.emitLast {f : Fragment} {s : State} {post : State → Prop} (hb : BufInv s) (hf : s.fatal = false)
    (hk : ∀ t, Emitted f s t → post t) (ho : ∀ t, fits s.cfg f = false → Overflowed s t → post t) : Ran false [f] s (Machine.emit f s) post := by
  have h := Ran.emit (k := Flow.done) hb hf (fun t _ ht => Ran.done ht.bufInv ht.fatal (SameBuf.refl t) (hk t ht)) ho
  have e : (Machine.emit f s).andThen Flow.done = Machine.emit f s := by cases Machine.emit f s <;> rfl
  rwa [e] at h

/-- Register updates after the flow. -/
theorem Ran.map {e : Bool} {fs : List Fragment} {s : State} {r : Flow} {post post' : State → Prop} {g : State → State} (hr : Ran e fs s r post)
    (hg : ∀ t, SameBuf t (g t)) (hd : ∀ t, t.fatal = false → post t → post' (g t)) (hh : ∀ t, t.fatal = true → post t → post' t) :
    Ran e fs s (r.andThen fun t => .done (g t)) post' := by
  obtain ⟨t, ht, hp⟩ := hr
  rcases ht.ends with ⟨h1, h2⟩ | ⟨h1, h2, h3⟩
  · have hb := hg t
    refine ⟨g t, ⟨.inl ⟨by rw [h1]; rfl, hb.fatal.trans h2⟩, ⟨?_, ?_, ?_, ?_⟩, hb.output.trans ht.output, hb.bufInv ht.bufInv, hb.cfg.trans ht.cfg, ?_, ?_⟩, hd t h2 hp⟩
    · rw [hb.shown, ht.appended.text]
    · rw [hb.fatal, ht.appended.fatal]
    · intro a ha; rw [hb.mem, ht.appended.cells a ha]
    · rw [hb.sink]; exact ht.appended.sink
    · rw [hb.slots, ht.slots]
    · intro h0; rw [hb.sink]; exact ht.bursts h0
  · exact ⟨t, ⟨.inr ⟨by rw [h1]; rfl, h2, h3⟩, ht.appended, ht.output, ht.bufInv, ht.cfg, ht.slots, ht.bursts⟩, hh t h2 hp⟩

/-- A flush and register updates after the last fragment (42 R109, the frame-2 branch). -/
theorem Ran.flushLast {s : State} {g : State → State} {post : State → Prop} (hb : BufInv s) (hf : s.fatal = false)
    (hg : ∀ t, SameBuf t (g t)) (hp : post (g s.flushed)) : Ran true [] s ((flush s).andThen fun t => .done (g t)) post := by
  have h := hg s.flushed
  rw [flush_eq hb.lenMax, Flow.andThen_done]
  refine ⟨_, ⟨.inl ⟨rfl, h.fatal.trans (by simpa using hf)⟩, ⟨?_, ?_, ?_, ?_⟩, by simp [h.output, Output.run],
    h.bufInv (flushed_bufInv hb), h.cfg.trans (flushed_cfg s), ?_, ?_⟩, hp⟩
  · simp [h.shown]
  · simp [h.fatal, hf]
  · intro a _; rw [h.mem, flushed_mem]
  · rw [h.sink]; exact flushed_grows s
  · simp [h.slots]
  · intro _
    rw [h.sink]
    have := flushed_sink_length s
    simp only [List.length_nil]; omega

end Sys2Proof.Machine
end

