-- ==== Sys2Proof/Laws/Handlers.lean ====
section
/-! SUPPORT. What each handler does, said once: its fragments and the registers at its end (42 R101 to R109, 43 R130 to R134). -/

namespace Sys2Proof.Machine

/-- What no symbol handler writes: `rise_ts` (10 R11) and the pending stimuli. -/
structure Kept (s t : State) : Prop where
  riseTs : t.riseTs = s.riseTs
  inputs : t.inputs = s.inputs

/-- The registers after the frame-completion policy (42 R109). -/
structure PolicyPost (s t : State) : Prop where
  kept : Kept s t
  bits : t.bits = s.bits
  err : t.err = s.err
  onFatal : t.fatal = true → t.phase = s.phase ∧ t.frameIndex = s.frameIndex ∧ t.framePos = satinc s.framePos ∧ t.bitCount = s.bitCount
  onSeq : t.fatal = false → seqCompletes s → t.phase = .idle ∧ t.frameIndex = 0 ∧ t.framePos = 0 ∧ t.bitCount = 0 ∧ t.len = 0
  onOther : t.fatal = false → ¬seqCompletes s →
    t.phase = s.phase ∧ t.frameIndex = s.frameIndex ∧ t.framePos = satinc s.framePos ∧ t.bitCount = s.bitCount

/-- The policy, with the constants and the increment in place. -/
theorem frameCompletionPolicy_eq (s : State) : frameCompletionPolicy s =
    if (s.frameIndex = 0 ∨ s.frameIndex = 1) ∧ satinc s.framePos = 8 then emit .frameDone (s.withFramePos (satinc s.framePos))
    else if seqCompletes s then
      (emit .frameDone (s.withFramePos (satinc s.framePos))).andThen fun s =>
      (emit .seqDone s).andThen fun s =>
      (flush s).andThen fun s =>
      .done (fullReset s)
    else .done (s.withFramePos (satinc s.framePos)) := rfl

theorem policy_ran {s : State} (hb : BufInv s) (hf : s.fatal = false) :
    Ran (decide (seqCompletes s)) (completionFragments s) s (frameCompletionPolicy s) (PolicyPost s) := by
  have hp : SameBuf s (s.withFramePos (satinc s.framePos)) := ⟨rfl, rfl, rfl, rfl, rfl, rfl⟩
  have hbp := hp.bufInv hb
  -- the registers of a state that only buffer steps separate from the policy's first line
  have post : ∀ t, SameRegs (s.withFramePos (satinc s.framePos)) t → (t.fatal = false → ¬seqCompletes s) → PolicyPost s t := by
    intro t h hseq
    exact ⟨⟨h.riseTs, h.inputs⟩, h.bits, h.err, fun _ => ⟨h.phase, h.frameIndex, h.framePos, h.bitCount⟩, fun h1 h2 => absurd h2 (hseq h1),
      fun _ _ => ⟨h.phase, h.frameIndex, h.framePos, h.bitCount⟩⟩
  have ofOver : ∀ t, SameRegs (s.withFramePos (satinc s.framePos)) t → t.fatal = true → PolicyPost s t := by
    intro t h hft
    exact post t h fun h0 => by rw [hft] at h0; cases h0
  refine Ran.rebase hb hf hp ?_
  rw [frameCompletionPolicy_eq]
  unfold completionFragments
  by_cases h1 : (s.frameIndex = 0 ∨ s.frameIndex = 1) ∧ satinc s.framePos = 8
  · rw [if_pos h1, if_pos h1]
    have hns : ¬seqCompletes s := by
      rintro ⟨h2, -⟩
      rcases h1.1 with h | h <;> rw [h] at h2 <;> exact absurd h2 (by decide)
    rw [decide_eq_false hns]
    exact Ran.emitLast hbp hf (fun t h => post t h.regs fun _ => hns) (fun t _ h => ofOver t h.regs h.fatal)
  · rw [if_neg h1, if_neg h1]
    by_cases h2 : seqCompletes s
    · rw [if_pos h2, if_pos h2, decide_eq_true h2]
      refine Ran.emit hbp hf (fun t _ h => ?_) (fun t _ h => ofOver t h.regs h.fatal)
      refine Ran.emit h.bufInv h.fatal (fun u _ k => ?_) (fun u _ k => ofOver u (h.regs.trans k.regs) k.fatal)
      refine Ran.flushLast k.bufInv k.fatal (fun t => ⟨rfl, rfl, rfl, rfl, rfl, rfl⟩) ?_
      have r := (h.regs.trans k.regs).trans (flushed_regs u)
      refine ⟨⟨r.riseTs, r.inputs⟩, r.bits, r.err, fun h0 => ?_, fun _ _ => ⟨rfl, rfl, rfl, rfl, flushed_len u⟩, fun _ h0 => absurd h2 h0⟩
      simp [k.fatal] at h0
    · rw [if_neg h2, if_neg h2, decide_eq_false h2]
      exact Ran.done hbp hf (SameBuf.refl _) (post _ (SameRegs.refl _) fun _ => h2)

/-- The registers after `CompleteByte`, entered with `bit_count == 8` (43 R134). -/
structure BytePost (s t : State) : Prop where
  kept : Kept s t
  bits : t.bits = s.bits
  err : t.err = s.err
  onFatal : t.fatal = true → t.phase = s.phase ∧ t.frameIndex = s.frameIndex ∧ t.bitCount = s.bitCount ∧
    t.framePos = if fits s.cfg (byteFragment s) then satinc s.framePos else s.framePos
  onSeq : t.fatal = false → seqCompletes s → t.phase = .idle ∧ t.frameIndex = 0 ∧ t.framePos = 0 ∧ t.bitCount = 0 ∧ t.len = 0
  onOther : t.fatal = false → ¬seqCompletes s →
    t.phase = s.phase ∧ t.frameIndex = s.frameIndex ∧ t.framePos = satinc s.framePos ∧ t.bitCount = 0

theorem completionFragments_congr {s t : State} (h : SameRegs s t) : completionFragments t = completionFragments s := by
  simp [completionFragments, seqCompletes, h.frameIndex, h.framePos]

theorem seqCompletes_congr {s t : State} (h : SameRegs s t) : seqCompletes t ↔ seqCompletes s := by
  simp [seqCompletes, h.frameIndex, h.framePos]

theorem completeByte_ran {s : State} (hb : BufInv s) (hf : s.fatal = false) :
    Ran (decide (seqCompletes s)) (byteFragment s :: completionFragments s) s (completeByte s) (BytePost s) := by
  unfold completeByte
  refine Ran.emit hb hf (fun u hfit h => ?_) (fun u hfit h => ?_)
  · have hr := h.regs
    have := policy_ran h.bufInv h.fatal
    rw [completionFragments_congr hr, decide_eq_decide.mpr (seqCompletes_congr hr)] at this
    refine this.map (fun t => ⟨rfl, rfl, rfl, rfl, rfl, rfl⟩) (fun t hft hp => ?_) (fun t hft hp => ?_)
    · refine ⟨⟨hp.kept.riseTs.trans hr.riseTs, hp.kept.inputs.trans hr.inputs⟩, hp.bits.trans hr.bits, hp.err.trans hr.err, ?_, ?_, ?_⟩
      · intro h0; rw [State.withBitCount_fatal, hft] at h0; cases h0
      · intro _ hs
        obtain ⟨a, b, c, -, e⟩ := hp.onSeq hft ((seqCompletes_congr hr).mpr hs)
        exact ⟨a, b, c, rfl, e⟩
      · intro _ hs
        obtain ⟨a, b, c, -⟩ := hp.onOther hft fun h0 => hs ((seqCompletes_congr hr).mp h0)
        exact ⟨a.trans hr.phase, b.trans hr.frameIndex, by rw [State.withBitCount_framePos, c, hr.framePos], rfl⟩
    · refine ⟨⟨hp.kept.riseTs.trans hr.riseTs, hp.kept.inputs.trans hr.inputs⟩, hp.bits.trans hr.bits, hp.err.trans hr.err, ?_, ?_, ?_⟩
      · intro _
        obtain ⟨a, b, c, d⟩ := hp.onFatal hft
        exact ⟨a.trans hr.phase, b.trans hr.frameIndex, d.trans hr.bitCount, by simp [hfit, c, hr.framePos]⟩
      · intro h0; rw [hft] at h0; cases h0
      · intro h0; rw [hft] at h0; cases h0
  · have r := h.regs
    refine ⟨⟨r.riseTs, r.inputs⟩, r.bits, r.err, fun _ => ⟨r.phase, r.frameIndex, r.bitCount, by simp [hfit, r.framePos]⟩, ?_, ?_⟩
    · intro h0; rw [h.fatal] at h0; cases h0
    · intro h0; rw [h.fatal] at h0; cases h0

/-- The registers after `SubmitBit(b)` (43 R130), entered with `bit_count <= 7`. -/
structure BitPost (b : Bool) (s t : State) : Prop where
  kept : Kept s t
  err : t.err = s.err
  bits : ∀ h : s.bitCount.toNat < 8, t.bits = s.bits.set s.bitCount.toNat b h
  onMid : s.bitCount ≠ 7 → t.fatal = false ∧ t.phase = s.phase ∧ t.frameIndex = s.frameIndex ∧ t.framePos = s.framePos ∧
    t.bitCount = s.bitCount + 1
  onFatal : s.bitCount = 7 → t.fatal = true → t.phase = s.phase ∧ t.frameIndex = s.frameIndex ∧ t.bitCount = 8 ∧
    t.framePos = if fits s.cfg (byteFragment (s.withBits (s.bits.set 7 b))) then satinc s.framePos else s.framePos
  onSeq : s.bitCount = 7 → t.fatal = false → seqCompletes s →
    t.phase = .idle ∧ t.frameIndex = 0 ∧ t.framePos = 0 ∧ t.bitCount = 0 ∧ t.len = 0
  onByte : s.bitCount = 7 → t.fatal = false → ¬seqCompletes s →
    t.phase = s.phase ∧ t.frameIndex = s.frameIndex ∧ t.framePos = satinc s.framePos ∧ t.bitCount = 0

/-- The fragments of the accumulator's part of `SubmitBit`. -/
def storeFragments (b : Bool) (s : State) : List Fragment :=
  if s.bitCount = 7 then byteFragment (s.withBits (s.bits.set 7 b)) :: completionFragments s else []

theorem storeBit_ran (b : Bool) {s : State} (hb : BufInv s) (hf : s.fatal = false) (hc : s.bitCount.toNat ≤ 7) :
    Ran (decide (endsSequence s)) (storeFragments b s) s (storeBit b s) (BitPost b s) := by
  have h8 : s.bitCount.toNat < 8 := by omega
  simp only [storeBit, h8, dite_true, storeFragments]
  have hr : SameBuf s ((s.withBits (s.bits.set s.bitCount.toNat b h8)).withBitCount (s.bitCount + 1)) := ⟨rfl, rfl, rfl, rfl, rfl, rfl⟩
  refine Ran.rebase hb hf hr ?_
  generalize hu : (s.withBits (s.bits.set s.bitCount.toNat b h8)).withBitCount (s.bitCount + 1) = u at *
  have hbits : u.bits = s.bits.set s.bitCount.toNat b h8 := by rw [← hu]; rfl
  have hcount : u.bitCount = s.bitCount + 1 := by rw [← hu]; rfl
  have hregs : u.riseTs = s.riseTs ∧ u.phase = s.phase ∧ u.frameIndex = s.frameIndex ∧ u.framePos = s.framePos ∧ u.err = s.err ∧
      u.inputs = s.inputs := by rw [← hu]; exact ⟨rfl, rfl, rfl, rfl, rfl, rfl⟩
  obtain ⟨r1, r2, r3, r4, r5, r6⟩ := hregs
  by_cases h7 : s.bitCount = 7
  · have hseq : seqCompletes u ↔ seqCompletes s := by simp [seqCompletes, r3, r4]
    have hfrag : byteFragment u = byteFragment (s.withBits (s.bits.set 7 b)) := by
      simp only [byteFragment, hr.cfg, State.withBits_cfg, hbits, State.withBits_bits]
      simp [h7]
    have hcomp : completionFragments u = completionFragments s := by simp [completionFragments, r3, r4, hseq]
    have h8' : u.bitCount = 8 := by rw [hcount, h7]; rfl
    have he : decide (endsSequence s) = decide (seqCompletes u) := decide_eq_decide.mpr ⟨fun h => hseq.mpr h.2, fun h => ⟨h7, hseq.mp h⟩⟩
    rw [if_pos h8', if_pos h7, ← hfrag, ← hcomp, he]
    refine (completeByte_ran (hr.bufInv hb) (hr.fatal.trans hf)).imp fun t hp => ?_
    refine ⟨⟨hp.kept.riseTs.trans r1, hp.kept.inputs.trans r6⟩, hp.err.trans r5, fun _ => hp.bits.trans hbits, fun h => absurd h7 h, ?_, ?_, ?_⟩
    · intro _ hft
      obtain ⟨p1, p2, p3, p4⟩ := hp.onFatal hft
      exact ⟨p1.trans r2, p2.trans r3, p3.trans h8', by rw [p4, hr.cfg, hfrag, r4]⟩
    · intro _ hft hs
      exact hp.onSeq hft (hseq.mpr hs)
    · intro _ hft hs
      obtain ⟨p1, p2, p3, p4⟩ := hp.onOther hft fun h => hs (hseq.mp h)
      exact ⟨p1.trans r2, p2.trans r3, by rw [p3, r4], p4⟩
  · have h9 : u.bitCount ≠ 8 := by
      rw [hcount]
      intro h0
      apply h7
      have := congrArg (· - 1) h0
      simpa using this
    rw [if_neg h9, if_neg h7, decide_eq_false fun h : endsSequence s => h7 h.1]
    have hfu := hr.fatal.trans hf
    exact Ran.done (hr.bufInv hb) hfu (SameBuf.refl _) ⟨⟨r1, r6⟩, r5, fun _ => hbits, fun _ => ⟨hfu, r2, r3, r4, hcount⟩, fun h => absurd h h7,
      fun h => absurd h h7, fun h => absurd h h7⟩

/-- A one-character fragment is never oversized under a legal configuration (44 R143). -/
theorem fits_bit {c : Cfg} (h : c.legal = true) (b : Bool) : fits c (.bit b) = true := by
  simpa [fits, fragmentText, Cfg.legal] using h

theorem submitBit_ran (b : Bool) {s : State} (hl : s.cfg.legal = true) (hb : BufInv s) (hf : s.fatal = false) (hc : s.bitCount.toNat ≤ 7) :
    Ran (decide (endsSequence s)) (bitFragments b s) s (submitBit b s) (BitPost b s) := by
  unfold submitBit bitFragments
  rcases hv : s.cfg.verbosity
  · exact storeBit_ran b hb hf hc
  · refine Ran.emit hb hf (fun u _ h => ?_) (fun u h0 _ => by rw [fits_bit hl] at h0; cases h0)
    have r := h.regs
    have hrun := storeBit_ran b h.bufInv h.fatal (by rw [r.bitCount]; exact hc)
    have hbf : byteFragment (u.withBits (u.bits.set 7 b)) = byteFragment (s.withBits (s.bits.set 7 b)) := by
      simp [byteFragment, r.cfg, r.bits]
    have hst : storeFragments b u = storeFragments b s := by
      simp only [storeFragments, r.bitCount, hbf, completionFragments_congr r]
    have he : endsSequence u ↔ endsSequence s := by rw [endsSequence, endsSequence, r.bitCount, seqCompletes_congr r]
    rw [hst, decide_eq_decide.mpr he] at hrun
    refine hrun.imp fun t hp => ?_
    refine ⟨⟨hp.kept.riseTs.trans r.riseTs, hp.kept.inputs.trans r.inputs⟩, hp.err.trans r.err, ?_, ?_, ?_, ?_, ?_⟩
    · intro h8
      rw [hp.bits (by rw [r.bitCount]; exact h8)]
      simp [r.bits, r.bitCount]
    · intro h7
      obtain ⟨p1, p2, p3, p4, p5⟩ := hp.onMid (by rw [r.bitCount]; exact h7)
      exact ⟨p1, p2.trans r.phase, p3.trans r.frameIndex, p4.trans r.framePos, by rw [p5, r.bitCount]⟩
    · intro h7 hft
      obtain ⟨p1, p2, p3, p4⟩ := hp.onFatal (r.bitCount.trans h7) hft
      exact ⟨p1.trans r.phase, p2.trans r.frameIndex, p3, by rw [p4, hbf, r.cfg, r.framePos]⟩
    · intro h7 hft hs
      exact hp.onSeq (r.bitCount.trans h7) hft ((seqCompletes_congr r).mpr hs)
    · intro h7 hft hs
      obtain ⟨p1, p2, p3, p4⟩ := hp.onByte (r.bitCount.trans h7) hft fun h => hs ((seqCompletes_congr r).mp h)
      exact ⟨p1.trans r.phase, p2.trans r.frameIndex, by rw [p3, r.framePos], p4⟩

/-! ### The other symbols -/

/-- The warning of a boundary that discards bits (60 R162). -/
theorem warnIncomplete_err (s : State) :
    (warnIncomplete s).err = s.err ++ (if s.bitCount = 0 then [] else [⟨.incomplete, s.bitCount.zeroExtend 32⟩]) := by
  unfold warnIncomplete
  by_cases h : s.bitCount = 0
  · rw [if_neg (not_not.mpr h), if_pos h, List.append_nil]
  · rw [if_pos h, if_neg h, raiseWarn_err]

theorem warnIncomplete_same (s : State) : SameBuf s (warnIncomplete s) ∧ Kept s (warnIncomplete s) ∧ (warnIncomplete s).phase = s.phase ∧
    (warnIncomplete s).frameIndex = s.frameIndex ∧ (warnIncomplete s).bits = s.bits := by
  unfold warnIncomplete
  split
  · exact ⟨⟨rfl, rfl, rfl, rfl, rfl, rfl⟩, ⟨rfl, rfl⟩, rfl, rfl, rfl⟩
  · exact ⟨SameBuf.refl s, ⟨rfl, rfl⟩, rfl, rfl, rfl⟩

/-- The registers a handler leaves, given in full. -/
structure RegsPost (s t : State) (phase : Phase) (frameIndex framePos : BitVec 8) (bitCount : BitVec 4) (err : List Warning) : Prop where
  kept : Kept s t
  bits : t.bits = s.bits
  phase : t.phase = phase
  frameIndex : t.frameIndex = frameIndex
  framePos : t.framePos = framePos
  bitCount : t.bitCount = bitCount
  err : t.err = err

theorem handleMsgStart_ran {s : State} (hb : BufInv s) (hf : s.fatal = false) :
    Ran false [.msg] s (handleMsgStart s) fun t => RegsPost s t (if s.cfg.strictness = .permissive then .inMsg else .preConf) 0 0 0
      (s.err ++ if s.bitCount = 0 then [] else [⟨.incomplete, s.bitCount.zeroExtend 32⟩]) := by
  obtain ⟨h1, h2, -, -, h5⟩ := warnIncomplete_same s
  have he := warnIncomplete_err s
  have hr : SameBuf s ((warnIncomplete s).zeroCounters.withPhase (if s.cfg.strictness = .permissive then .inMsg else .preConf)) :=
    h1.trans ⟨rfl, rfl, rfl, rfl, rfl, rfl⟩
  refine Ran.rebase hb hf hr ?_
  simp only [handleMsgStart, State.zeroCounters_cfg, h1.cfg]
  have post : ∀ t, SameRegs ((warnIncomplete s).zeroCounters.withPhase (if s.cfg.strictness = .permissive then .inMsg else .preConf)) t →
      RegsPost s t (if s.cfg.strictness = .permissive then .inMsg else .preConf) 0 0 0
        (s.err ++ if s.bitCount = 0 then [] else [⟨.incomplete, s.bitCount.zeroExtend 32⟩]) := fun t r =>
    ⟨⟨r.riseTs.trans h2.riseTs, r.inputs.trans h2.inputs⟩, r.bits.trans h5, r.phase, r.frameIndex, r.framePos, r.bitCount, r.err.trans he⟩
  exact Ran.emitLast (hr.bufInv hb) (hr.fatal.trans hf) (fun t h => post t h.regs) (fun t _ h => post t h.regs)

theorem handleFrameConfS_ran {s : State} (hb : BufInv s) (hf : s.fatal = false) :
    Ran false (if s.phase = .idle then [] else [.conf]) s (handleFrameConfS s) fun t =>
      RegsPost s t (if s.phase = .idle then .idle else .inMsg) 0 0 0 s.err := by
  unfold handleFrameConfS
  by_cases h : s.phase = .idle
  · simp only [h, ne_eq, not_true_eq_false, if_false, if_true]
    exact Ran.done hb hf ⟨rfl, rfl, rfl, rfl, rfl, rfl⟩ ⟨⟨rfl, rfl⟩, rfl, rfl, rfl, rfl, rfl, rfl⟩
  · simp only [h, ne_eq, not_false_eq_true, if_false, if_true]
    have hr : SameBuf s (s.zeroCounters.withPhase .inMsg) := ⟨rfl, rfl, rfl, rfl, rfl, rfl⟩
    refine Ran.rebase hb hf hr ?_
    have post : ∀ t, SameRegs (s.zeroCounters.withPhase .inMsg) t → RegsPost s t .inMsg 0 0 0 s.err := fun t r =>
      ⟨⟨r.riseTs, r.inputs⟩, r.bits, r.phase, r.frameIndex, r.framePos, r.bitCount, r.err⟩
    exact Ran.emitLast (hr.bufInv hb) (hr.fatal.trans hf) (fun t h => post t h.regs) (fun t _ h => post t h.regs)

theorem handleFrameStart_ran {s : State} (hb : BufInv s) (hf : s.fatal = false) :
    Ran false [.frame (satinc s.frameIndex)] s (handleFrameStart s) fun t => RegsPost s t s.phase (satinc s.frameIndex) 0 0
      (s.err ++ if s.bitCount = 0 then [] else [⟨.incomplete, s.bitCount.zeroExtend 32⟩]) := by
  obtain ⟨h1, h2, h3, h4, h5⟩ := warnIncomplete_same s
  have he := warnIncomplete_err s
  have hr : SameBuf s ((((warnIncomplete s).withFrameIndex (satinc s.frameIndex)).withFramePos 0).withBitCount 0) :=
    h1.trans ⟨rfl, rfl, rfl, rfl, rfl, rfl⟩
  refine Ran.rebase hb hf hr ?_
  simp only [handleFrameStart, State.withBitCount_frameIndex, State.withFramePos_frameIndex, State.withFrameIndex_frameIndex, h4]
  have post : ∀ t, SameRegs ((((warnIncomplete s).withFrameIndex (satinc s.frameIndex)).withFramePos 0).withBitCount 0) t →
      RegsPost s t s.phase (satinc s.frameIndex) 0 0
        (s.err ++ if s.bitCount = 0 then [] else [⟨.incomplete, s.bitCount.zeroExtend 32⟩]) := fun t r =>
    ⟨⟨r.riseTs.trans h2.riseTs, r.inputs.trans h2.inputs⟩, r.bits.trans h5, r.phase.trans h3, r.frameIndex, r.framePos, r.bitCount,
      r.err.trans he⟩
  exact Ran.emitLast (hr.bufInv hb) (hr.fatal.trans hf) (fun t h => post t h.regs) (fun t _ h => post t h.regs)

theorem handleInvalid_ran (d : Ts) {s : State} (hb : BufInv s) (hf : s.fatal = false) :
    Ran false [] s (handleInvalid d s) fun t => RegsPost s t .idle 0 0 0 (s.err ++ if s.phase = .inMsg then [⟨.decode, d⟩] else []) := by
  unfold handleInvalid
  by_cases h : s.phase = .inMsg
  · simp only [h, if_true]
    exact Ran.done hb hf ⟨rfl, rfl, rfl, rfl, rfl, rfl⟩ ⟨⟨rfl, rfl⟩, rfl, rfl, rfl, rfl, rfl, rfl⟩
  · simp only [h, if_false]
    exact Ran.done hb hf ⟨rfl, rfl, rfl, rfl, rfl, rfl⟩ ⟨⟨rfl, rfl⟩, rfl, rfl, rfl, rfl, rfl, by simp⟩

theorem handleFrameConfP_ran {s : State} (hb : BufInv s) (hf : s.fatal = false) :
    Ran false [] s (handleFrameConfP s) fun t => t = s := Ran.done hb hf (SameBuf.refl s) rfl

end Sys2Proof.Machine
end

