-- ==== Sys2Proof/Laws/PerInstr.lean ====
section
/-! SUPPORT. Per-instruction facts about the syntax: the encoding of every instruction matches the `match` and `mask` of its row of the
opcode table (30 R61, R62). -/

namespace Sys2Proof.Laws.RowMatch

/-- The row of the opcode table: `ctl_match` and `ctl_mask` for format OP, `match` and `mask` for format SYM. -/
def row : Instr → BitVec 4 × BitVec 4
  | .reset => (0b1000, 0b1000)
  | .edgeRise _ => (0b0011, 0b1011)
  | .edgeFall _ => (0b0010, 0b1011)
  | .flush => (0b0100, 0b1100)
  | .nop => (0b0000, 0b1110)
  | .msgStart => (0x0, 0x7)
  | .frameConfP => (0x1, 0xF)
  | .frameConfS => (0x9, 0xF)
  | .frameStart => (0x2, 0x7)
  | .bit0 => (0x3, 0x7)
  | .bit1 => (0x4, 0x7)
  | .invalid _ => (0x5, 0x7)

/-- The selecting field of a code: the control field of a word, or the whole dispatch value. -/
def selector : Code → BitVec 4
  | .op w => OpWord.ctl w
  | .sym v _ => v

/-- The encoding matches the instruction's row. -/
def Statement (i : Instr) : Prop := ∀ σ : Strictness, selector (encode σ i) &&& (row i).2 = (row i).1

theorem ctl_make (c : BitVec 4) (t : Ts) : OpWord.ctl (OpWord.make c t) = c := by
  apply BitVec.eq_of_getLsbD_eq
  intro k hk
  have h : ¬32 + k < 32 := by omega
  simp only [OpWord.ctl, OpWord.make, BitVec.getLsbD_extractLsb', BitVec.getLsbD_append, hk, h, decide_true, Bool.true_and, if_false,
    Nat.add_sub_cancel_left]

theorem reset : Statement .reset := by intro σ; simp only [encode, selector, ctl_make, row]; rfl
theorem edgeRise (ts : Ts) : Statement (.edgeRise ts) := by intro σ; simp only [encode, selector, ctl_make, row]; rfl
theorem edgeFall (ts : Ts) : Statement (.edgeFall ts) := by intro σ; simp only [encode, selector, ctl_make, row]; rfl
theorem flush : Statement .flush := by intro σ; simp only [encode, selector, ctl_make, row]; rfl
theorem nop : Statement .nop := by intro σ; simp only [encode, selector, ctl_make, row]; rfl
theorem msgStart : Statement .msgStart := by intro σ; cases σ <;> rfl
theorem frameConfP : Statement .frameConfP := by intro σ; cases σ <;> rfl
theorem frameConfS : Statement .frameConfS := by intro σ; cases σ <;> rfl
theorem frameStart : Statement .frameStart := by intro σ; cases σ <;> rfl
theorem bit0 : Statement .bit0 := by intro σ; cases σ <;> rfl
theorem bit1 : Statement .bit1 := by intro σ; cases σ <;> rfl
theorem invalid (d : Ts) : Statement (.invalid d) := by intro σ; cases σ <;> simp only [encode, selector, row] <;> decide

end Sys2Proof.Laws.RowMatch
end

