-- ==== Sys2Proof/Tests/Slice0.lean ====
section
/-! SUPPORT. The model's own tests: refusals of ill-formed terms, decoding of words written out from 30 R60 to R62, single steps from
the vectors of 95_test_vectors.md (its S, V and P ids), and a witness for every statement that has hypotheses. -/

namespace Sys2Proof.Tests

open Sys2Proof.Machine

/-! ### Helpers -/

def pc : Cfg := Cfg.calibrated .compact .permissive
def sc : Cfg := Cfg.calibrated .compact .strict
def pt : Cfg := Cfg.calibrated .trace .permissive
def first : Cfg := { pc with bitOrder := .firstIsMsb }

def bitsOf (l : List Nat) : Vector Bool 8 := Vector.ofFn fun i => l.getD i.val 0 == 1

/-- The state `(p, fi, fp, bc)` of 95_test_vectors.md with `bits` and the buffer's text. -/
def st (c : Cfg) (p : Phase) (fi fp : Nat) (bc : Nat) (bits : List Nat := []) (buf : List Char := []) : State :=
  { State.resetWith c with
    phase := p, frameIndex := BitVec.ofNat 8 fi, framePos := BitVec.ofNat 8 fp, bitCount := BitVec.ofNat 4 bc, bits := bitsOf bits,
    mem := Memory.writeSpan [] 0 (ascii buf), len := buf.length }

def fatalSt : State := (st pc .inMsg 1 3 5).withFatal true

/-- What a vector shows of a state. -/
structure View where
  phase : Phase
  frameIndex : Nat
  framePos : Nat
  bitCount : Nat
  buf : Text
  sink : List Text
  err : List Warning
  fatal : Bool
  deriving DecidableEq, Repr

def view (o : Host.Outcome State Fault Refusal) : Option View :=
  match o with
  | .next s => some ⟨s.phase, s.frameIndex.toNat, s.framePos.toNat, s.bitCount.toNat, s.bufText, s.sink, s.err, s.fatal⟩
  | .fault _ => none
  | .refused _ => none

/-- The outcome is a next state that passes a check. -/
def nextSat (o : Host.Outcome State Fault Refusal) (p : State → Bool) : Bool :=
  match o with
  | .next s => p s
  | .fault _ => false
  | .refused _ => false

def refusedBy (o : Host.Outcome State Fault Refusal) : Option Refusal :=
  match o with
  | .next _ => none
  | .fault _ => none
  | .refused r => some r

theorem next_of {o : Host.Outcome State Fault Refusal} {p : State → Bool} (h : nextSat o p = true) : ∃ t, o = .next t ∧ p t = true := by
  cases o with
  | next s => exact ⟨s, rfl, h⟩
  | fault _ => cases h
  | refused _ => cases h

/-- The invariant as checks that can be evaluated. -/
def invChecks (s : State) : Bool :=
  decide (s.cfg.legal = true) && decide (s.fatal = false → s.bitCount.toNat ≤ 7) && decide (s.bitCount.toNat ≤ 8) &&
  decide (s.len ≤ s.cfg.cap) && decide (s.cfg.strictness = .permissive → s.phase ≠ .preConf) &&
  decide (∀ b ∈ s.sink, b ≠ [] ∧ b.length ≤ s.cfg.cap) && decide (s.fatal = true → s.len = 0) && decide (Memory.wf s.mem) &&
  decide (∀ c ∈ s.mem, c.1 < s.cfg.cap) &&
  decide (∀ w ∈ s.err, w.code = .incomplete → 1 ≤ w.info.toNat ∧ w.info.toNat ≤ 7) &&
  decide (∀ w ∈ s.err, w.code = .decode → classify s.cfg w.info = .invalid)

theorem inv_of {s : State} (h : invChecks s = true) : s.Inv := by
  simp only [invChecks, Bool.and_eq_true, decide_eq_true_eq] at h
  obtain ⟨⟨⟨⟨⟨⟨⟨⟨⟨⟨h1, h2⟩, h3⟩, h4⟩, h5⟩, h6⟩, h7⟩, h8⟩, h9⟩, h10⟩, h11⟩ := h
  exact ⟨h1, h2, h3, h4, h5, h6, h7, h8, h9, h10, h11⟩

/-! ### WellFormed refuses -/

theorem test_wf_refuses_permissive_row_under_strict : Instr.wf sc .frameConfP = false := by decide
theorem test_wf_refuses_strict_row_under_permissive : Instr.wf pc .frameConfS = false := by decide
/-- 400 lies in the window of BIT0. -/
theorem test_wf_refuses_invalid_in_window : Instr.wf pc (.invalid 400) = false := by decide
theorem test_legal_refuses_capacity_zero : Cfg.legal { pc with cap := 0 } = false := by decide
theorem test_step_refuses_capacity_zero : refusedBy (step (State.resetWith { pc with cap := 0 })) = some .illegalConfig := by decide
theorem test_step_refuses_symbol_code_six : refusedBy (step (State.reset.withInputs [.symbol 6 0 []])) = some .noSuchSymbol := by decide
theorem test_step_refuses_invalid_in_window : refusedBy (step (State.reset.withInputs [.symbol 5 400 []])) = some .illFormed := by decide

/-! ### Decoding: words written out from the encodings of 30 R61 and R62 -/

theorem test_decode_reset : decodeTableWord 40 0b100000000000000000000000000000000000 = some .reset := by decide
/-- V6: the other fields are ignored. -/
theorem test_decode_reset_overrides : decodeTableWord 40 0xfffffffff = some .reset := by decide
theorem test_decode_rise : decodeTableWord 40 0b001100000000000000000000000001100100 = some (.edgeRise 100) := by decide
theorem test_decode_fall : decodeTableWord 40 0b001000000000000000000000000111110100 = some (.edgeFall 500) := by decide
theorem test_decode_flush : decodeTableWord 40 0b010000000000000000000000000000000000 = some .flush := by decide
/-- V6: `5:ffffffff`. -/
theorem test_decode_flush_ignores : decodeTableWord 40 0x5ffffffff = some .flush := by decide
theorem test_decode_nop : decodeTableWord 40 0b000000000000000000000000000000000000 = some .nop := by decide
theorem test_decode_combined : opsOf 0x6000061a8 = [.edgeFall 25000, .flush] ∧ opsOf 0x700000064 = [.edgeRise 100, .flush] := by decide
theorem test_decode_msg_start : decodeTableWord 8 0b0000 = some .msgStart ∧ decodeTableWord 8 0b1000 = some .msgStart := by decide
theorem test_decode_conf_permissive : decodeTableWord 8 0b0001 = some .frameConfP := by decide
theorem test_decode_conf_strict : decodeTableWord 8 0b1001 = some .frameConfS := by decide
theorem test_decode_frame_start : decodeTableWord 8 0b0010 = some .frameStart := by decide
theorem test_decode_bit0 : decodeTableWord 8 0b0011 = some .bit0 := by decide
theorem test_decode_bit1 : decodeTableWord 8 0b1100 = some .bit1 := by decide
theorem test_decode_invalid : decodeTableWord 8 0b0101 = some (.invalid 0) := by decide
theorem test_decode_refuses_codes : decodeTableWord 8 0b0110 = none ∧ decodeTableWord 8 0b1111 = none := by decide
theorem test_decode_refuses_wide : decodeTableWord 8 0x10 = none ∧ decodeTableWord 40 0x1000000000 = none := by decide

/-! ### Placed words run as the first instruction after reset -/

theorem test_fetch_rise : nextSat (step (State.reset.withFetchWord 40 0x300000064)) (fun t => t.riseTs == 100 && t.inputs == []) = true := by decide
theorem test_fetch_conf_strict :
    nextSat (step ((st pc .inMsg 1 4 2).withFetchWord 8 0b1001)) (fun t => t.frameIndex == 0 && t.len == 5) = true := by decide

/-! ### One step each, from the vectors -/

/-- V7. -/
theorem test_reset : exec .reset (((st pc .inMsg 1 3 5 [1, 1] ['\n', 'M']).withRiseTs 0x1234).withSink [[1]]) =
    .next (((st pc .idle 0 0 0).withMem (Memory.writeSpan [] 0 (ascii ['\n', 'M']))).withSink [[1]]) := by rfl
/-- V7, last line. -/
theorem test_reset_leaves_fatal : view (exec .reset fatalSt) = some ⟨.idle, 0, 0, 0, [], [], [], false⟩ := by decide
/-- V6. -/
theorem test_rise : nextSat (exec (.edgeRise 100) (st pc .inMsg 1 3 5)) (fun t => t == (st pc .inMsg 1 3 5).withRiseTs 100) = true := by decide
/-- P5: the RISE after the halt is ignored. -/
theorem test_rise_ignored_when_fatal : nextSat (exec (.edgeRise 100) fatalSt) (fun t => t == fatalSt) = true := by decide
/-- V1: 25000 ticks across the wrap, a MSG_START. -/
theorem test_fall_across_wrap : view (exec (.edgeFall 0x51A8) ((st pc .idle 0 0 0).withRiseTs 0xFFFFF000)) =
    some ⟨.inMsg, 0, 0, 0, ascii ['\n', 'M', 'S', 'G', '\n'], [], [], false⟩ := by decide
/-- P6: under ALTERNATE 1200 ticks are FRAME_CONF, so no bit is submitted. -/
theorem test_fall_alternate : view (exec (.edgeFall 1200) (st (Cfg.alternate .compact .strict) .preConf 0 0 0)) =
    some ⟨.inMsg, 0, 0, 0, ascii ['C', 'O', 'N', 'F', '\n'], [], [], false⟩ := by decide
/-- V5: five buffered characters become one burst. -/
theorem test_flush : view (exec .flush (st pc .inMsg 0 0 0 [] ['\n', 'M', 'S', 'G', '\n'])) =
    some ⟨.inMsg, 0, 0, 0, [], [ascii ['\n', 'M', 'S', 'G', '\n']], [], false⟩ := by decide
/-- V5: an empty buffer writes no burst. -/
theorem test_flush_empty : view (exec .flush (st pc .inMsg 0 0 0)) = some ⟨.inMsg, 0, 0, 0, [], [], [], false⟩ := by decide
/-- V6: `0:12345678`. -/
theorem test_nop : nextSat (step ((st pc .inMsg 1 3 5).withFetchWord 40 0x012345678)) (fun t => t == st pc .inMsg 1 3 5) = true := by decide
/-- V3 row 3. -/
theorem test_msg_start_partial_byte : view (exec .msgStart (st pc .inMsg 1 3 5)) =
    some ⟨.inMsg, 0, 0, 0, ascii ['\n', 'M', 'S', 'G', '\n'], [], [⟨.incomplete, 5⟩], false⟩ := by decide
/-- P5: with CAP = 4 the marker is oversized; the earlier text was flushed, the earlier lines have run. -/
theorem test_msg_start_fatal : view (exec .msgStart (st { pc with cap := 4 } .idle 0 1 0 [] ['a', '5'])) =
    some ⟨.inMsg, 0, 0, 0, [], [ascii ['a', '5']], [], true⟩ := by decide
/-- V3 row 5. -/
theorem test_conf_permissive : nextSat (exec .frameConfP (st pc .inMsg 1 3 5)) (fun t => t == st pc .inMsg 1 3 5) = true := by decide
/-- V3 row 6. -/
theorem test_conf_strict : view (exec .frameConfS (st sc .preConf 0 0 0 [] ['\n', 'M', 'S', 'G', '\n'])) =
    some ⟨.inMsg, 0, 0, 0, ascii ['\n', 'M', 'S', 'G', '\n', 'C', 'O', 'N', 'F', '\n'], [], [], false⟩ := by decide
/-- V3 row 7. -/
theorem test_conf_strict_unseen : view (exec .frameConfS (st sc .idle 2 5 3)) = some ⟨.idle, 0, 0, 0, [], [], [], false⟩ := by decide
/-- V3 row 11. -/
theorem test_frame_start_saturates : view (exec .frameStart (st pc .inMsg 255 0 0)) =
    some ⟨.inMsg, 255, 0, 0, ascii ['\n', 'F', '2', '5', '5', ':'], [], [], false⟩ := by decide
/-- V3 row 12. -/
theorem test_frame_start_partial_byte : view (exec .frameStart (st pc .inMsg 1 2 6)) =
    some ⟨.inMsg, 2, 0, 0, ascii ['\n', 'F', '2', ':'], [], [⟨.incomplete, 6⟩], false⟩ := by decide
/-- V3 row 22. -/
theorem test_bit0_ends_sequence : view (exec .bit0 (st pc .inMsg 2 18 7 [0, 1, 0, 0, 1, 0, 0] ['x', 'y', 'z'])) =
    some ⟨.idle, 0, 0, 0, [], [ascii ['x', 'y', 'z', '1', '2', ' ', 'F', 'R', 'A', 'M', 'E', '_', 'O', 'K', '\n', 'S', 'E', 'Q', '_', 'O', 'K', '\n']],
      [], false⟩ := by decide
/-- P4: a FLUSH after the first of the two Appends. -/
theorem test_bit0_flush_inside : view (exec .bit0 ((st pt .inMsg 1 0 7 [1, 1, 1, 1] ['1', '0']).withSlots [true])) =
    some ⟨.inMsg, 1, 1, 0, ascii [' ', ' '], [ascii ['1', '0', '0']], [], false⟩ := by decide
/-- V5: four bursts in one operation. -/
theorem test_bit1_four_bursts :
    view (exec .bit1 (st { pt with cap := 10 } .inMsg 2 18 7 [] ['x', 'x', 'x', 'x', 'x', 'x', 'x', 'x', 'x', 'x'])) =
    some ⟨.idle, 0, 0, 0, [], [ascii ['x', 'x', 'x', 'x', 'x', 'x', 'x', 'x', 'x', 'x'], ascii ['1', ' ', ' '],
      ascii [' ', 'F', 'R', 'A', 'M', 'E', '_', 'O', 'K', '\n'], ascii ['S', 'E', 'Q', '_', 'O', 'K', '\n']], [], false⟩ := by decide
/-- V3 row 18. -/
theorem test_bit1_ends_frame : view (exec .bit1 (st pc .inMsg 0 7 7 [1, 1, 1, 1, 1, 1, 1])) =
    some ⟨.inMsg, 0, 8, 0, ascii ['f', 'f', ' ', 'F', 'R', 'A', 'M', 'E', '_', 'O', 'K', '\n'], [], [], false⟩ := by decide
/-- V3 row 14. -/
theorem test_invalid : view (exec (.invalid 5000) (st pc .inMsg 1 3 5)) = some ⟨.idle, 0, 0, 0, [], [], [⟨.decode, 5000⟩], false⟩ := by decide
/-- V3 row 15. -/
theorem test_invalid_before_confirmation : view (exec (.invalid 700) (st sc .preConf 0 0 0)) = some ⟨.idle, 0, 0, 0, [], [], [], false⟩ := by decide

/-- V6: both orders of `6:000061a8`; the first of the two steps. -/
theorem test_both_orders :
    view (step ((st pc .inMsg 0 0 0 [] ['m']).withInputs [.word 0x6000061a8 0 []])) = some ⟨.inMsg, 0, 0, 0, [], [ascii ['m']], [], false⟩ ∧
    view (step ((st pc .inMsg 0 0 0 [] ['m']).withInputs [.word 0x6000061a8 afterLast []])) =
      some ⟨.inMsg, 0, 0, 0, ascii ['m', '\n', 'M', 'S', 'G', '\n'], [], [], false⟩ := by decide

/-! ### Pure functions -/

/-- V1. -/
theorem test_duration : duration 0xFFFFFF00 0x100 = 512 ∧ duration 0xFFFFFFFF 0 = 1 ∧ duration 1 0 = 0xFFFFFFFF := by decide
/-- V2, both presets at bounds. -/
theorem test_classify : classify pc 200 = .invalid ∧ classify pc 201 = .bit0 ∧ classify pc 1299 = .bit1 ∧ classify pc 35999 = .frameStart ∧
    classify (Cfg.alternate .compact .permissive) 1151 = .frameConf ∧ classify (Cfg.alternate .compact .permissive) 300 = .invalid := by decide
/-- V4. -/
theorem test_assemble : assemble .lastIsMsb (bitsOf [0, 1, 0, 1, 1, 0, 1, 1]) = 0xDA ∧
    assemble .firstIsMsb (bitsOf [0, 1, 0, 1, 1, 0, 1, 1]) = 0x5B := by decide
/-- V4. -/
theorem test_numerals : hex2 159 = ascii ['9', 'f'] ∧ hex2 5 = ascii ['0', '5'] ∧ dec 100 = ascii ['1', '0', '0'] ∧
    dec 65535 = ascii ['6', '5', '5', '3', '5'] := by decide
/-- V5: CAP = 16, `len` 16 and 12. -/
theorem test_append : append [7] ((st { pc with cap := 16 } .idle 0 0 0).withLen 16) =
      .done (((((st { pc with cap := 16 } .idle 0 0 0).withSink [List.replicate 16 0]).withMem [(0, 7)])).withLen 1) ∧
    append [7, 7, 7, 7] ((st { pc with cap := 16 } .idle 0 0 0).withLen 12) =
      .done (((st { pc with cap := 16 } .idle 0 0 0).withMem [(12, 7), (13, 7), (14, 7), (15, 7)]).withLen 16) := by decide
/-- P1: the first words of the program, from the notation of 30 R72. -/
theorem test_assembler : assembleProgram .lastIsMsb [.mstart, .b1, .flush] =
    [.word 0x300000000 afterLast [], .word 0x2000061a8 afterLast [], .word 0x30000639c afterLast [], .word 0x20000684c afterLast [],
     .word 0x400000000 afterLast []] := by decide
/-- P4: `FLUSH @1` belongs to the falling edge. -/
theorem test_assembler_flush_at : assembleProgram .lastIsMsb [.flushAt 1, .setTime 0x9fc8, .b0] =
    [.word 0x300009fc8 afterLast [], .word 0x20000a158 afterLast [true]] := by decide
/-- 30 R73. -/
theorem test_ports : burstTransfers [1, 2] = [⟨1, false⟩, ⟨2, true⟩] ∧ warnTransfer ⟨.incomplete, 5⟩ = ⟨2, 5⟩ := by decide

/-! ### Witnesses: concrete states and operands that meet the hypotheses of each statement together

`live c fi fp bc` is a state inside a message with three characters buffered. -/

def live (c : Cfg) (fi fp bc : Nat) : State := st c .inMsg fi fp bc [1, 0, 1] ['a', '5', 'b']
def tiny (n : Nat) : Cfg := { pc with cap := n }

theorem witness_inv_live : (live pc 1 3 5).Inv ∧ (live pc 1 3 5).fatal = false := ⟨inv_of (by decide), rfl⟩
theorem witness_inv_trace_strict : (live { pt with strictness := .strict } 2 18 7).Inv := inv_of (by decide)
theorem witness_inv_fatal : fatalSt.Inv ∧ fatalSt.fatal = true := ⟨inv_of (by decide), rfl⟩

theorem witness_reset_state : Cfg.legal (tiny 1) = true := by decide
theorem witness_step_keeps : ((live pc 1 3 7).withInputs [.word 0x2000004b0 0 []]).Inv ∧
    ∃ t, step ((live pc 1 3 7).withInputs [.word 0x2000004b0 0 []]) = .next t ∧ (t.framePos == 4) = true :=
  ⟨inv_of (by decide), next_of (by decide)⟩
/-- A run of two steps, so that a state beyond the first is reached. -/
theorem witness_reachable : ∃ s, Reachable s ∧ (s.phase == .inMsg) = true := by
  have h0 := Reachable.start pc [.word 0x2000061a8 0 []] (by decide)
  obtain ⟨t, h, ht⟩ := next_of (o := step ((State.resetWith pc).withInputs [.word 0x2000061a8 0 []])) (p := fun t => t.phase == .inMsg) (by decide)
  exact ⟨t, .next h0 h, ht⟩
theorem witness_never_faults : (live pc 1 3 7).Inv := inv_of (by decide)
theorem witness_presented_words : (live pc 1 3 5).Inv ∧ (live pc 1 3 5).inputs = [] ∧
    ((live pc 1 3 5).withInputs [.word 0x6000061a8 1 [true]]).Inv := ⟨inv_of (by decide), rfl, inv_of (by decide)⟩
theorem witness_decode_encode_strap : Instr.wf sc .frameConfS = true ∧ encode sc.strictness .frameConfS = .sym 0b1001 0 ∧
    Instr.wf pc .frameConfP = true ∧ encode pc.strictness .frameConfP = .sym 0b0001 0 ∧
    Instr.wf sc (.invalid 5000) = true ∧ encode sc.strictness (.invalid 5000) = .sym 0b1101 5000 := by decide
theorem witness_encode_decode : decodeSym 0 7 = .ok .msgStart ∧ decodeSym 0b1101 7 = .ok (.invalid 7) := ⟨rfl, rfl⟩
theorem witness_step_runs : Cfg.legal pc = true ∧ OpWord.alsoFlush 0x2000061a8 = false ∧ OpWord.alsoFlush 0x8ffffffff = false ∧
    decodeSym (BitVec.ofBool pc.strictness.strap ++ (5 : BitVec 3)) 5000 = .ok (.invalid 5000) ∧ Instr.wf pc (.invalid 5000) = true :=
  ⟨by decide, by decide, by decide, rfl, by decide⟩
theorem witness_step_exec : ((live pc 1 3 5).withInputs [.word 0x2000061a8 0 []]).Inv ∧ ((live pc 1 3 5).withInputs [.symbol 5 5000 []]).Inv :=
  ⟨inv_of (by decide), inv_of (by decide)⟩
theorem witness_edge_with_flush : ((live pc 1 3 5).withInputs [.word 0x6000061a8 0 [true]]).Inv ∧
    ((live pc 1 3 5).withInputs [.word 0x7000061a8 afterLast []]).Inv ∧
    OpWord.alsoFlush 0x6000061a8 = true ∧ OpWord.alsoFlush 0x7000061a8 = true :=
  ⟨inv_of (by decide), inv_of (by decide), by decide, by decide⟩
/-- The FLUSH between two Appends, and with other placements beside a grant beyond the last Append. -/
theorem witness_edge_with_flush_inside : ((live pt 1 0 7).withInputs [.word 0x600000190 (0 + 1) []]).Inv ∧
    ((live pt 1 0 7).withInputs [.word 0x600000190 (5 + 1) [true]]).Inv ∧ OpWord.alsoFlush 0x600000190 = true :=
  ⟨inv_of (by decide), inv_of (by decide), by decide⟩
theorem witness_reset_result : Cfg.legal pc = true ∧ OpWord.rst 0xf000061a8 = true ∧ fatalSt.fatal = true ∧
    ∃ t, exec .reset fatalSt = .next t ∧ (!t.fatal) = true := ⟨by decide, by decide, rfl, next_of (by decide)⟩
theorem witness_illegal : (State.resetWith (tiny 0)).cfg.cap = 0 := rfl
theorem witness_rise : (live pc 1 3 5).fatal = false ∧ fatalSt.fatal = true := ⟨rfl, rfl⟩
theorem witness_flush : (live pc 1 3 5).len = 3 ∧ (live pc 1 3 5).Inv ∧ (st pc .idle 0 0 0).len = 0 ∧ (st pc .idle 0 0 0).Inv ∧ fatalSt.Inv :=
  ⟨rfl, inv_of (by decide), rfl, inv_of (by decide), inv_of (by decide)⟩
theorem witness_fatal_stops : fatalSt.fatal = true ∧ Instr.bit0 ≠ .reset := ⟨rfl, by decide⟩
theorem witness_repeated_edges : (live pc 1 3 5).Inv ∧ (live pc 1 3 5).fatal = false ∧
    (∃ t, exec (.edgeRise 100) (live pc 1 3 5) = .next t ∧ true = true) ∧
    ∃ t, exec (.edgeFall 400) (live pc 1 3 5) = .next t ∧ (!t.fatal && t.bitCount == 6) = true :=
  ⟨inv_of (by decide), rfl, next_of (p := fun _ => true) (by decide), next_of (by decide)⟩
theorem witness_message_frame : (live pc 1 3 7).Inv ∧ (live pc 255 0 0).Inv ∧ (live sc 1 4 2).Inv ∧
    (st sc .idle 2 5 3).Inv ∧ (st sc .preConf 0 0 0).Inv := ⟨inv_of (by decide), inv_of (by decide), inv_of (by decide), inv_of (by decide), inv_of (by decide)⟩
theorem witness_bit_inside : (live pt 1 3 0).Inv ∧ (live pt 1 3 0).bitCount ≠ 7 ∧ (live pc 1 3 6).Inv ∧ (live pc 1 3 6).bitCount ≠ 7 :=
  ⟨inv_of (by decide), by decide, inv_of (by decide), by decide⟩
/-- Both modes' buffer clauses: Compact, and Trace with the last free cell. -/
theorem witness_bit_inside_buffer : (live pc 1 3 6).cfg.verbosity = .compact ∧
    (live { pt with cap := 4 } 1 3 0).Inv ∧ (live { pt with cap := 4 } 1 3 0).cfg.verbosity = .trace ∧
    (live { pt with cap := 4 } 1 3 0).slots = [] ∧ (live { pt with cap := 4 } 1 3 0).len + 1 = 4 := ⟨rfl, inv_of (by decide), rfl, rfl, rfl⟩
/-- Byte 8 of frame 0, byte 19 of frame 2, and a byte that completes nothing. -/
theorem witness_bit_completing : ((live pc 0 7 7).Inv ∧ (bitFragments false (live pc 0 7 7)).all (fits pc) = true) ∧
    ((live pt 2 18 7).Inv ∧ (bitFragments true (live pt 2 18 7)).all (fits pt) = true) ∧
    ((live pc 2 7 7).Inv ∧ (bitFragments true (live pc 2 7 7)).all (fits pc) = true) :=
  ⟨⟨inv_of (by decide), by decide⟩, ⟨inv_of (by decide), by decide⟩, inv_of (by decide), by decide⟩
/-- The byte itself oversized (CAP = 1), and the marker oversized after the byte was rendered (CAP = 9). -/
theorem witness_bit_fatal : ((st (tiny 1) .inMsg 0 7 7).Inv ∧ (bitFragments false (st (tiny 1) .inMsg 0 7 7)).all (fits (tiny 1)) = false) ∧
    ((live (tiny 9) 0 7 7).Inv ∧ (bitFragments false (live (tiny 9) 0 7 7)).all (fits (tiny 9)) = false ∧
      fits (tiny 9) (byteFragment ((live (tiny 9) 0 7 7).withBits ((live (tiny 9) 0 7 7).bits.set 7 false))) = true) :=
  ⟨⟨inv_of (by decide), by decide⟩, inv_of (by decide), by decide, by decide⟩
theorem witness_phase_table : (live pc 2 18 7).Inv ∧ (live pc 2 18 7).fatal = false ∧
    ∃ t, exec (symInstr pc.strictness .bit1 1200) (live pc 2 18 7) = .next t ∧ (!t.fatal && t.phase == .idle) = true :=
  ⟨inv_of (by decide), rfl, next_of (by decide)⟩
theorem witness_invalid_twice : (live pc 1 3 5).fatal = false ∧
    ∃ t, exec (.invalid 5000) (live pc 1 3 5) = .next t ∧ (t.err == [⟨.decode, 5000⟩]) = true := ⟨rfl, next_of (by decide)⟩
/-- At the limits: an exact fill; a full buffer and a fragment of CAP characters; a fragment of CAP + 1. -/
theorem witness_append : (live (tiny 5) 0 0 0).Inv ∧ (live (tiny 5) 0 0 0).len + [1, 2].length ≤ 5 ∧
    (5 < (live (tiny 5) 0 0 0).len + [1, 2, 3, 4, 5].length ∧ [1, 2, 3, 4, 5].length ≤ 5) ∧ 5 < [1, 2, 3, 4, 5, 6].length :=
  ⟨inv_of (by decide), by decide, by decide, by decide⟩
theorem witness_append_empty_full : (live (tiny 3) 0 0 0).Inv ∧ (live (tiny 3) 0 0 0).len = 3 := ⟨inv_of (by decide), rfl⟩
theorem witness_flush_twice : flush (live pc 1 3 5) = .done ((live pc 1 3 5).withLen 0 |>.withSink [ascii ['a', '5', 'b']]) := by decide
/-- Up to the last cell, and one past it. -/
theorem witness_memory : Memory.wf (live (tiny 5) 0 0 0).mem ∧ 3 + [9, 0].length ≤ 5 ∧ 0 + 5 ≤ 5 := by decide
theorem witness_access_past : (live (tiny 5) 0 0 0).cfg.cap < 4 + [9, 0].length := by decide
theorem witness_every_operation : (live pt 2 18 7).Inv ∧ (live pt 2 18 7).fatal = false ∧ Instr.bit1 ≠ .reset ∧
    (fragmentsOf .bit1 (live pt 2 18 7)).length = 4 := ⟨inv_of (by decide), rfl, by decide, by decide⟩
/-- Its three clauses about bursts: no fragment (a Compact bit, a confirmation in IDLE); an exact fill that ends no sequence; byte 19 of
frame 2. -/
theorem witness_every_operation_bursts :
    (Instr.bit0 ≠ .flush ∧ fragmentsOf .bit0 (live pc 1 3 5) = [] ∧ fragmentsOf .frameConfS (st sc .idle 2 5 3) = []) ∧
    ((live { pc with cap := 5 } 1 3 7).Inv ∧ flushesAtEnd .bit1 (live { pc with cap := 5 } 1 3 7) = false ∧
      (live { pc with cap := 5 } 1 3 7).slots = [] ∧
      (live { pc with cap := 5 } 1 3 7).len + ((fragmentsOf .bit1 (live { pc with cap := 5 } 1 3 7)).flatMap (fragmentText pc)).length = 5) ∧
    flushesAtEnd .bit1 (live pt 2 18 7) = true :=
  ⟨⟨by decide, by decide, by decide⟩, ⟨inv_of (by decide), by decide, rfl, by decide⟩, by decide⟩
/-- A completion with room for ten characters and one FLUSH placed after its first Append: four bursts (44 R140, texts of 30 R63). -/
theorem witness_bursts : ((live { pt with cap := 10 } 2 18 7).withSlots [true]).Inv ∧ Instr.bit1 ≠ .reset ∧ fatalSt.Inv ∧
    ∃ t, exec .bit1 ((live { pt with cap := 10 } 2 18 7).withSlots [true]) = .next t ∧ (t.sink.length == 4) = true :=
  ⟨inv_of (by decide), by decide, inv_of (by decide), next_of (by decide)⟩
theorem witness_strict_confirmation_idle : (st sc .idle 2 5 3).Inv ∧ (st sc .idle 2 5 3).fatal = false ∧ (st sc .idle 2 5 3).phase = .idle :=
  ⟨inv_of (by decide), rfl, rfl⟩
theorem witness_placement : (live pt 1 0 7).Inv ∧ ((live pt 1 0 7).withSlots [true, true]).slots = [true, true] := ⟨inv_of (by decide), rfl⟩
theorem witness_oversized : (st (tiny 4) .idle 0 1 0 [] ['a', '5']).Inv ∧ (st (tiny 4) .idle 0 1 0 [] ['a', '5']).fatal = false ∧
    (fragmentsOf .msgStart (st (tiny 4) .idle 0 1 0 [] ['a', '5'])).all (fits (tiny 4)) = false :=
  ⟨inv_of (by decide), rfl, by decide⟩
theorem length_dec_byte : ∀ n : BitVec 8, (dec n.toNat).length ≤ 3 := by decide
theorem witness_all_fit : ∀ f, fits pc f = true := by
  intro f
  cases f with
  | frame n =>
    have h := length_dec_byte n
    simp only [fits, fragmentText, List.length_append, decide_eq_true_eq]
    exact (show 2 + (dec n.toNat).length + 1 ≤ 256 by omega)
  | hex v => rfl
  | bit b => rfl
  | msg => decide
  | conf => decide
  | byteSep => decide
  | frameDone => decide
  | seqDone => decide
/-- A configuration whose one oversized text, the confirmation, it cannot produce. -/
theorem witness_producible_fit : fits { pc with txtConf := List.replicate 257 0 } .conf = false ∧
    ∀ f, producible { pc with txtConf := List.replicate 257 0 } f = true → fits { pc with txtConf := List.replicate 257 0 } f = true := by
  refine ⟨?_, fun f h => ?_⟩
  · show decide ((List.replicate 257 (0 : Byte)).length ≤ 256) = false
    simp only [List.length_replicate]
    rfl
  cases f with
  | conf => exact absurd h (by decide)
  | frame n => exact witness_all_fit (.frame n)
  | hex v => exact witness_all_fit (.hex v)
  | bit b => exact witness_all_fit (.bit b)
  | msg => exact witness_all_fit .msg
  | byteSep => exact witness_all_fit .byteSep
  | frameDone => exact witness_all_fit .frameDone
  | seqDone => exact witness_all_fit .seqDone
theorem witness_producible_operation : Instr.wf sc .frameConfS = true ∧ Fragment.conf ∈ fragmentsOf .frameConfS (st sc .preConf 0 0 0) := by decide
theorem witness_fatal_never : ((live pc 0 7 7).withInputs [.word 0x2000004b0 0 []]).Inv ∧
    ∃ t, step ((live pc 0 7 7).withInputs [.word 0x2000004b0 0 []]) = .next t ∧ (t.framePos == 8) = true :=
  ⟨inv_of (by decide), next_of (by decide)⟩
theorem witness_ten : 10 ≤ 10 := by decide
theorem witness_bounded : (live pt 2 18 7).Inv ∧ (live pt 2 18 7).slots = [] ∧
    ∃ t, exec .bit1 (live pt 2 18 7) = .next t ∧ (t.sink.length == 1) = true := ⟨inv_of (by decide), rfl, next_of (by decide)⟩
theorem witness_writers : (live pc 2 18 7).Inv ∧ (∀ ts, Instr.bit1 ≠ .edgeFall ts) ∧
    ∃ t, exec .bit1 (live pc 2 18 7) = .next t ∧ (t.phase != .inMsg && t.bits != (live pc 2 18 7).bits) = true :=
  ⟨inv_of (by decide), (fun _ h => nomatch h), next_of (by decide)⟩
theorem witness_histories : ((live pc 1 3 5).withInputs [.word 0x400000000 0 []]).Inv ∧
    ∃ t, step ((live pc 1 3 5).withInputs [.word 0x400000000 0 []]) = .next t ∧ (t.sink.length == 1) = true :=
  ⟨inv_of (by decide), next_of (by decide)⟩
theorem witness_leaves_fatal : (fatalSt.withInputs [.word 0x800000000 0 []]).fatal = true ∧
    ∃ t, step (fatalSt.withInputs [.word 0x800000000 0 []]) = .next t ∧ (!t.fatal) = true := ⟨rfl, next_of (by decide)⟩
theorem witness_duration : ((0 : Ts) < 0xFFFFFFFF) ∧ ¬((5 : Ts) < 5) ∧ 2 ^ 32 - 1 < 2 ^ 32 ∧ 2 ^ 32 ≤ 2 ^ 32 := by decide
theorem witness_bit_index : 0 < 8 ∧ 7 < 8 := by decide
theorem witness_byte_pulses : (bitsOf [1, 0, 1, 0, 0, 1, 0, 1]).toList = submissionOrder .lastIsMsb 0xa5 ∧
    (bitsOf [0, 0, 0, 0, 0, 1, 0, 1]).toList = submissionOrder .firstIsMsb 0x05 := by decide
theorem witness_decimal : 10 ≠ 0 := by decide
theorem witness_saturation : (254#8).toNat < 2 ^ 8 - 1 ∧ (255#8).toNat = 2 ^ 8 - 1 := by decide
theorem witness_burst : (burstTransfers [1, 2])[1]? = some ⟨2, true⟩ := by decide
theorem witness_error_transfers : ((live pc 1 3 5).withErr [⟨.incomplete, 5⟩, ⟨.decode, 5000⟩]).Inv ∧
    ((live pc 1 3 5).withErr [⟨.incomplete, 5⟩, ⟨.decode, 5000⟩]).err[0]? = some ⟨.incomplete, 5⟩ ∧
    ((live pc 1 3 5).withErr [⟨.incomplete, 5⟩, ⟨.decode, 5000⟩]).err[1]? = some ⟨.decode, 5000⟩ := ⟨inv_of (by decide), rfl, rfl⟩
theorem witness_status : (live pc 1 3 5).Inv ∧ (live pc 1 3 5).fatalOut = false ∧
    (∃ t, exec .reset (live pc 1 3 5) = .next t ∧ true = true) ∧ (∃ t, exec .flush (live pc 1 3 5) = .next t ∧ true = true) ∧
    (∃ t, exec (.invalid 5000) (live pc 1 3 5) = .next t ∧ true = true) ∧ ∃ t, exec .msgStart (live pc 1 3 5) = .next t ∧ true = true :=
  ⟨inv_of (by decide), rfl, next_of (p := fun _ => true) (by decide), next_of (p := fun _ => true) (by decide),
    next_of (p := fun _ => true) (by decide), next_of (p := fun _ => true) (by decide)⟩
theorem witness_status_fatal : ((st (tiny 4) .idle 0 1 0 [] ['a', '5']).withInputs [.word 0x2000061a8 0 []]).Inv ∧
    ∃ t, step ((st (tiny 4) .idle 0 1 0 [] ['a', '5']).withInputs [.word 0x2000061a8 0 []]) = .next t ∧ t.fatalOut = true :=
  ⟨inv_of (by decide), next_of (by decide)⟩

end Sys2Proof.Tests
end

section
/-! The refusal of an illegal configuration (00 R4). -/

namespace Sys2Proof.Machine

/-- With K, FIW and FPW fixed at this hardware's values, `CAP = 0` is all that is left of what 00 R4 forbids. -/
theorem legal_eq_false_iff (c : Cfg) : c.legal = false ↔ c.cap = 0 := by
  simp [Cfg.legal]

/-- The legality check stands before the stimuli: they are not looked at. -/
theorem step_of_not_legal {s : State} (h : s.cfg.legal = false) : step s = .refused .illegalConfig := by
  simp [step, nextStep, h]

/-- Settles O14: a capacity of 0 fails the legality check, and a step that fails it is refused before it takes a stimulus. -/
theorem illegalConfigurationIsRefused : Obligations.IllegalConfigurationIsRefused :=
  fun s hcap => step_of_not_legal ((legal_eq_false_iff s.cfg).mpr hcap)

end Sys2Proof.Machine
end

section
/-! What one operation can do to the parts a whole run is judged by (10 R21, R22): the invariant, the histories and the straps. -/

namespace Sys2Proof.Machine

/-! ### From flows to next states -/

theorem unlessFatal_of_fatal {s : State} (hf : s.fatal = true) (f : State → Flow) : unlessFatal s f = .next s := by
  rw [unlessFatal, if_pos hf]

/-- A live core runs the operation's procedure. -/
theorem outcome_of_unlessFatal {s t : State} {f : State → Flow} (hf : s.fatal = false) (h : unlessFatal s f = .next t) :
    (f s).outcome = .next t := by
  rwa [unlessFatal, if_neg (by simp [hf])] at h

/-- Every operation but `RESET` either finds the core halted and changes nothing, or runs its procedure (60 R163). -/
theorem unlessFatal_next {s t : State} {f : State → Flow} (h : unlessFatal s f = .next t) :
    (s.fatal = true ∧ t = s) ∨ (s.fatal = false ∧ (f s).outcome = .next t) := by
  cases hf : s.fatal with
  | true => exact .inl ⟨rfl, (Host.Outcome.next.inj ((unlessFatal_of_fatal hf f).symm.trans h)).symm⟩
  | false => exact .inr ⟨rfl, outcome_of_unlessFatal hf h⟩

/-- The next state of a procedure is the one its `Ran` speaks of. -/
theorem Ran.next {e : Bool} {fs : List Fragment} {s t : State} {r : Flow} {post : State → Prop} (hr : Ran e fs s r post)
    (h : r.outcome = .next t) : RanTo e fs s r t ∧ post t := by
  obtain ⟨u, hu, ht⟩ := hr.outcome
  obtain rfl : u = t := Host.Outcome.next.inj (hu.symm.trans h)
  exact ht

theorem RanTo.fatalEmpty {e : Bool} {fs : List Fragment} {s t : State} {r : Flow} (h : RanTo e fs s r t) (hf : t.fatal = true) :
    t.len = 0 := by
  rcases h.ends with ⟨-, hlive⟩ | ⟨-, -, hlen⟩
  · rw [hlive] at hf; cases hf
  · exact hlen

/-- `FLUSH` on a halted core does nothing, on a live one it flushes (44 R142). -/
theorem execFlush_next {s t : State} (hs : s.Inv) (h : execFlush s = .next t) : t = if s.fatal then s else s.flushed := by
  unfold execFlush flusherFlush at h
  split at h
  · rename_i hf; rw [if_pos hf]; exact (Host.Outcome.next.inj h).symm
  · rename_i hf; rw [flush_eq hs.lenMax] at h; rw [if_neg hf]; exact (Host.Outcome.next.inj h).symm

theorem exec_edgeRise (ts : Ts) (s : State) : exec (.edgeRise ts) s = unlessFatal s fun s => .done (s.withRiseTs ts) := rfl

/-- `EDGE_FALL` is the handler of the symbol its duration classifies as (40 R81). -/
theorem exec_edgeFall (ts : Ts) (s : State) :
    exec (.edgeFall ts) s = unlessFatal s (handle (classify s.cfg (duration s.riseTs ts)) (duration s.riseTs ts)) := rfl

/-- Nothing but `RESET` moves a halted core (10 R18, 60 R163). -/
theorem exec_of_fatal {i : Instr} {s : State} (hf : s.fatal = true) (hi : i ≠ .reset) : exec i s = .next s := by
  cases i with
  | reset => exact absurd rfl hi
  | nop => rfl
  | flush => simp [exec, execFlush, flusherFlush, hf]
  | edgeRise ts => rw [exec_edgeRise, unlessFatal_of_fatal hf]
  | edgeFall ts => rw [exec_edgeFall, unlessFatal_of_fatal hf]
  | msgStart | frameConfP | frameConfS | frameStart | bit0 | bit1 | invalid _ => exact unlessFatal_of_fatal hf _

/-! ### Advances -/

/-- What a record of the error channel may hold (60 R161, R162). -/
def Warning.Sound (c : Cfg) (w : Warning) : Prop :=
  (w.code = .incomplete → 1 ≤ w.info.toNat ∧ w.info.toNat ≤ 7) ∧ (w.code = .decode → classify c w.info = .invalid)

theorem State.Inv.sound {s : State} (h : s.Inv) : ∀ w ∈ s.err, w.Sound s.cfg :=
  fun w hw => ⟨h.incompleteInfo w hw, h.decodeInfo w hw⟩

/-- The invariant still holds, and nothing is taken back from the histories or changed of the straps (10 R21, R22; 20 R54). -/
structure Advances (s t : State) : Prop where
  inv : t.Inv
  sink : s.sink <+: t.sink
  err : s.err <+: t.err
  cfg : t.cfg = s.cfg

theorem Advances.refl {s : State} (hs : s.Inv) : Advances s s := ⟨hs, List.prefix_refl _, List.prefix_refl _, rfl⟩

/-- The buffer's part of `Advances` is in the run; the registers and the new warnings are left to show. -/
theorem RanTo.advances {e : Bool} {fs : List Fragment} {s t : State} {r : Flow} {ws : List Warning} (hr : RanTo e fs s r t) (hs : s.Inv)
    (hlive : t.fatal = false → t.bitCount.toNat ≤ 7) (hmax : t.bitCount.toNat ≤ 8)
    (hphase : s.cfg.strictness = .permissive → t.phase ≠ .preConf) (herr : t.err = s.err ++ ws) (hws : ∀ w ∈ ws, w.Sound s.cfg) :
    Advances s t := by
  have hsound : ∀ w ∈ t.err, w.Sound t.cfg := by
    rw [herr, hr.cfg]
    exact List.forall_mem_append.mpr ⟨hs.sound, hws⟩
  have hb := hr.bufInv
  refine ⟨⟨hr.cfg ▸ hs.legal, hlive, hmax, hb.lenMax, hr.cfg ▸ hphase, hb.bursts, hr.fatalEmpty, hb.memWf, hb.memRange, ?_, ?_⟩,
    hr.appended.sink, herr ▸ List.prefix_append _ _, hr.cfg⟩
  · exact fun w hw => (hsound w hw).1
  · exact fun w hw => (hsound w hw).2

/-- The handlers that leave `bit_count == 0`. -/
theorem RegsPost.advances {e : Bool} {fs : List Fragment} {s t : State} {r : Flow} {p : Phase} {fi fp : BitVec 8} {ws : List Warning}
    (hp : RegsPost s t p fi fp 0 (s.err ++ ws)) (hr : RanTo e fs s r t) (hs : s.Inv)
    (hphase : s.cfg.strictness = .permissive → p ≠ .preConf) (hws : ∀ w ∈ ws, w.Sound s.cfg) : Advances s t := by
  have hz : t.bitCount.toNat = 0 := by rw [hp.bitCount]; rfl
  exact hr.advances hs (fun _ => by omega) (by omega) (hp.phase ▸ hphase) hp.err hws

/-- A submitted bit counts up to 7, is cleared at 8, and stays at 8 where a fatal abandons the byte (43 R134). -/
theorem BitPost.bitCount_le {b : Bool} {s t : State} (hp : BitPost b s t) (hc : s.bitCount.toNat ≤ 7) :
    (t.fatal = false → t.bitCount.toNat ≤ 7) ∧ t.bitCount.toNat ≤ 8 := by
  by_cases h7 : s.bitCount = 7
  · cases hf : t.fatal with
    | true =>
      obtain ⟨-, -, h8, -⟩ := hp.onFatal h7 hf
      simp [h8]
    | false =>
      have hz : t.bitCount = 0 := by
        by_cases hq : seqCompletes s
        · obtain ⟨-, -, -, hz, -⟩ := hp.onSeq h7 hf hq
          exact hz
        · obtain ⟨-, -, -, hz⟩ := hp.onByte h7 hf hq
          exact hz
      simp [hz]
  · obtain ⟨-, -, -, -, hn⟩ := hp.onMid h7
    have : t.bitCount.toNat ≤ 7 := by rw [hn]; bv_omega
    exact ⟨fun _ => this, by omega⟩

/-- Only a bit that ends the sequence moves the phase or the frame index (42 R109). -/
theorem BitPost.phase_frameIndex_eq {b : Bool} {s t : State} (hp : BitPost b s t) (h : ¬endsSequence s) :
    t.phase = s.phase ∧ t.frameIndex = s.frameIndex := by
  by_cases h7 : s.bitCount = 7
  · cases hf : t.fatal with
    | true =>
      obtain ⟨h1, h2, -⟩ := hp.onFatal h7 hf
      exact ⟨h1, h2⟩
    | false =>
      obtain ⟨h1, h2, -⟩ := hp.onByte h7 hf fun hq => h ⟨h7, hq⟩
      exact ⟨h1, h2⟩
  · obtain ⟨-, h1, h2, -⟩ := hp.onMid h7
    exact ⟨h1, h2⟩

theorem BitPost.phase_cases {b : Bool} {s t : State} (hp : BitPost b s t) : t.phase = s.phase ∨ t.phase = .idle := by
  by_cases he : endsSequence s
  · cases hf : t.fatal with
    | true => exact .inl (hp.onFatal he.1 hf).1
    | false => exact .inr (hp.onSeq he.1 hf he.2).1
  · exact .inl (hp.phase_frameIndex_eq he).1

theorem BitPost.advances {e : Bool} {fs : List Fragment} {b : Bool} {s t : State} {r : Flow} (hp : BitPost b s t) (hr : RanTo e fs s r t)
    (hs : s.Inv) (hf : s.fatal = false) : Advances s t := by
  obtain ⟨hlive, hmax⟩ := hp.bitCount_le (hs.bitCountLive hf)
  refine hr.advances (ws := []) hs hlive hmax (fun hσ => ?_) (by rw [hp.err, List.append_nil]) (by simp)
  rcases hp.phase_cases with h | h <;> rw [h]
  · exact hs.phasePermissive hσ
  · decide

/-- The partial count that `W_INCOMPLETE` reports is between 1 and 7 (60 R162). -/
theorem State.Inv.incomplete_sound {s : State} (hs : s.Inv) (hf : s.fatal = false) :
    ∀ w ∈ (if s.bitCount = 0 then [] else [⟨.incomplete, s.bitCount.zeroExtend 32⟩] : List Warning), w.Sound s.cfg := by
  have hc := hs.bitCountLive hf
  split
  · simp
  · rename_i h0
    have hpos : s.bitCount.toNat ≠ 0 := fun h => h0 (BitVec.eq_of_toNat_eq h)
    simp only [List.mem_singleton, forall_eq]
    refine ⟨fun _ => ?_, by simp⟩
    have hz : (s.bitCount.zeroExtend 32).toNat = s.bitCount.toNat := BitVec.toNat_setWidth_of_le (by decide)
    simp only [hz]
    omega

/-- Every handler keeps the invariant, `INVALID` when its duration lies in no window (42 R100 to R107). -/
theorem handle_advances {y : Symbol} {d : Ts} {s t : State} (hs : s.Inv) (hf : s.fatal = false)
    (hd : y = .invalid → classify s.cfg d = .invalid) (h : (handle y d s).outcome = .next t) : Advances s t := by
  have hb := hs.bufInv
  have bit (b : Bool) (h : (submitBit b s).outcome = .next t) : Advances s t := by
    obtain ⟨hr, hp⟩ := (submitBit_ran b hs.legal hb hf (hs.bitCountLive hf)).next h
    exact hp.advances hr hs hf
  cases y with
  | msgStart =>
    obtain ⟨hr, hp⟩ := (handleMsgStart_ran hb hf).next h
    exact hp.advances hr hs (fun hσ => by simp [hσ]) (hs.incomplete_sound hf)
  | frameConf =>
    by_cases hσ : s.cfg.strictness = .permissive
    · simp only [handle, if_pos hσ] at h
      obtain ⟨-, rfl⟩ := (handleFrameConfP_ran hb hf).next h
      exact Advances.refl hs
    · simp only [handle, if_neg hσ] at h
      obtain ⟨hr, hp⟩ := (handleFrameConfS_ran hb hf).next h
      rw [← List.append_nil s.err] at hp
      exact hp.advances hr hs (fun h => absurd h hσ) (by simp)
  | frameStart =>
    obtain ⟨hr, hp⟩ := (handleFrameStart_ran hb hf).next h
    exact hp.advances hr hs hs.phasePermissive (hs.incomplete_sound hf)
  | bit0 => exact bit false h
  | bit1 => exact bit true h
  | invalid =>
    obtain ⟨hr, hp⟩ := (handleInvalid_ran d hb hf).next h
    refine hp.advances hr hs (by simp) ?_
    split
    · simpa [Warning.Sound] using hd rfl
    · simp

/-- A flush keeps the invariant and only adds to the sink. -/
theorem flushed_advances {s : State} (hs : s.Inv) : Advances s s.flushed := by
  have hb := flushed_bufInv hs.bufInv
  have hr := flushed_regs s
  refine ⟨⟨?_, ?_, ?_, hb.lenMax, ?_, hb.bursts, fun _ => flushed_len s, hb.memWf, hb.memRange, ?_, ?_⟩, flushed_grows s, by rw [hr.err],
    hr.cfg⟩ <;> simp only [hr.cfg, hr.bitCount, hr.phase, hr.err, flushed_fatal]
  exacts [hs.legal, hs.bitCountLive, hs.bitCountMax, hs.phasePermissive, hs.incompleteInfo, hs.decodeInfo]

/-- The invariant does not speak of `rise_ts` (10 R11). -/
theorem withRiseTs_advances {s : State} (hs : s.Inv) (ts : Ts) : Advances s (s.withRiseTs ts) :=
  ⟨{ hs with }, List.prefix_refl _, List.prefix_refl _, rfl⟩

/-- `RESET` empties the buffer and clears every register, so it may also leave `fatal == 1` (70 R180). -/
theorem execReset_advances {s t : State} (hs : s.Inv) (h : execReset s = .next t) : Advances s t := by
  obtain rfl := Host.Outcome.next.inj h
  exact ⟨⟨hs.legal, fun _ => by simp, by simp, Nat.zero_le _, fun _ => by simp, hs.bursts, fun _ => rfl, hs.memWf, hs.memRange,
    hs.incompleteInfo, hs.decodeInfo⟩, List.prefix_refl _, List.prefix_refl _, rfl⟩

/-- Every operation that the configuration allows keeps the invariant, the histories and the straps. -/
theorem exec_advances {i : Instr} {s t : State} (hs : s.Inv) (hi : i.wf s.cfg = true) (h : exec i s = .next t) : Advances s t := by
  have symbol (y : Symbol) (d : Ts) (f : State → Flow) (h : unlessFatal s f = .next t) (hy : f s = handle y d s)
      (hd : y = .invalid → classify s.cfg d = .invalid) : Advances s t := by
    rcases unlessFatal_next h with ⟨-, rfl⟩ | ⟨hf, h⟩
    · exact Advances.refl hs
    · exact handle_advances hs hf hd (hy ▸ h)
  cases i with
  | reset => exact execReset_advances hs h
  | nop =>
    obtain rfl := Host.Outcome.next.inj h
    exact Advances.refl hs
  | flush =>
    rw [execFlush_next hs h]
    split
    · exact Advances.refl hs
    · exact flushed_advances hs
  | edgeRise ts =>
    rw [exec_edgeRise] at h
    rcases unlessFatal_next h with ⟨-, rfl⟩ | ⟨-, h⟩
    · exact Advances.refl hs
    · obtain rfl := Host.Outcome.next.inj h
      exact withRiseTs_advances hs ts
  | edgeFall ts => exact symbol _ _ _ (exec_edgeFall ts s ▸ h) rfl id
  | msgStart => exact symbol .msgStart 0 _ h rfl nofun
  | frameConfP => exact symbol .frameConf 0 _ h (by rw [handle, if_pos (of_decide_eq_true hi)]) nofun
  | frameConfS => exact symbol .frameConf 0 _ h (by rw [handle, if_neg (by simp [of_decide_eq_true hi])]) nofun
  | frameStart => exact symbol .frameStart 0 _ h rfl nofun
  | bit0 => exact symbol .bit0 0 _ h rfl nofun
  | bit1 => exact symbol .bit1 0 _ h rfl nofun
  | invalid d => exact symbol .invalid d _ h rfl fun _ => of_decide_eq_true hi

end Sys2Proof.Machine
end

section
/-! What one step performs: one operation that the configuration allows, with only the pending stimuli and placements set around it. -/

namespace Sys2Proof.Machine

/-- The same core: only what the surroundings still present may differ (log entries 1 and 5). -/
def SameCore (s t : State) : Prop := ∃ (p : List Stimulus) (q : List Bool), t = (s.withInputs p).withSlots q

theorem SameCore.refl (s : State) : SameCore s s := ⟨s.inputs, s.slots, rfl⟩

theorem SameCore.withInputs (s : State) (p : List Stimulus) : SameCore s (s.withInputs p) := ⟨p, s.slots, rfl⟩

theorem SameCore.trans {s t u : State} (h : SameCore s t) (k : SameCore t u) : SameCore s u := by
  obtain ⟨p, q, rfl⟩ := h
  obtain ⟨p', q', rfl⟩ := k
  exact ⟨p', q', rfl⟩

theorem SameCore.cfg {s t : State} (h : SameCore s t) : t.cfg = s.cfg := by obtain ⟨p, q, rfl⟩ := h; rfl

theorem SameCore.fatal {s t : State} (h : SameCore s t) : t.fatal = s.fatal := by obtain ⟨p, q, rfl⟩ := h; rfl

theorem SameCore.inv {s t : State} (h : SameCore s t) (hs : s.Inv) : t.Inv := by
  obtain ⟨p, q, rfl⟩ := h
  exact { hs with }

theorem SameCore.advances {s t : State} (h : SameCore s t) (hs : s.Inv) : Advances s t := by
  have ht := h.inv hs
  obtain ⟨p, q, rfl⟩ := h
  exact ⟨ht, List.prefix_refl _, List.prefix_refl _, rfl⟩

theorem Advances.trans {s t u : State} (h : Advances s t) (k : Advances t u) : Advances s u :=
  ⟨k.inv, h.sink.trans k.sink, h.err.trans k.err, k.cfg.trans h.cfg⟩

/-- From `s` to `t` the instruction `i` is performed, one the configuration allows. -/
structure Performs (i : Instr) (s t : State) : Prop where
  wf : i.wf s.cfg = true
  run : ∃ u v, SameCore s u ∧ exec i u = .next v ∧ SameCore v t

theorem settle_next {o : Host.Outcome State Fault Refusal} {t : State} (h : settle o = .next t) : ∃ v, o = .next v ∧ SameCore v t := by
  cases o with
  | next v =>
    refine ⟨v, rfl, ?_⟩
    simp only [settle] at h
    split at h <;> obtain rfl := Host.Outcome.next.inj h
    · exact ⟨_, _, rfl⟩
    · exact ⟨v.inputs, _, rfl⟩
  | fault _ => cases h
  | refused _ => cases h

theorem runPlaced_performs {i : Instr} {slots : List Bool} {s u t : State} (hu : SameCore s u) (hi : i.wf s.cfg = true)
    (h : runPlaced i slots u = .next t) : Performs i s t := by
  obtain ⟨v, hv, ht⟩ := settle_next h
  exact ⟨hi, _, v, hu.trans ⟨u.inputs, slots, rfl⟩, hv, ht⟩

/-- The port operations are never refused (30 R69 (a)). -/
theorem decodeOp_wf (c : Cfg) (w : OpWord) : (decodeOp w).wf c = true := by
  unfold decodeOp
  repeat' split
  all_goals rfl

theorem decodeOp_eq_reset {w : OpWord} (h : decodeOp w = .reset) : OpWord.rst w = true := by
  unfold decodeOp at h
  split at h
  · assumption
  · repeat' split at h
    all_goals cases h

/-- No dispatch value is a RESET (30 R62). -/
theorem decodeSym_ne_reset {v : BitVec 4} {d : Ts} {i : Instr} (h : decodeSym v d = .ok i) : i ≠ .reset := by
  unfold decodeSym at h
  split at h
  · rename_i y _
    obtain rfl := Except.ok.inj h
    cases y with
    | frameConf => simp only [symInstr]; split <;> simp
    | msgStart | frameStart | bit0 | bit1 | invalid => nofun
  · cases h

/-- A word performs the operation it decodes to, or first the FLUSH it also asks for (30 R61, 60 R166 (3)). -/
theorem issueWord_next {w : OpWord} {grant : Nat} {slots : List Bool} {s u t : State} (hu : SameCore s u)
    (h : issueWord w grant slots u = .next t) : Performs .flush s t ∨ Performs (decodeOp w) s t := by
  have hw := decodeOp_wf s.cfg w
  unfold issueWord at h
  split at h
  · cases grant with
    | zero => exact .inl (runPlaced_performs (hu.trans (SameCore.withInputs u _)) rfl h)
    | succ k => exact .inr (runPlaced_performs hu hw h)
  · split at h
    · exact .inr (runPlaced_performs hu hw h)
    · exact .inr (runPlaced_performs hu hw h)

theorem issueSymbol_next {code : BitVec 3} {d : Ts} {slots : List Bool} {s u t : State} (hu : SameCore s u)
    (h : issueSymbol code d slots u = .next t) : ∃ i, Performs i s t ∧ i ≠ .reset := by
  unfold issueSymbol at h
  split at h
  · rename_i i hi
    split at h
    · rename_i hwf
      exact ⟨i, runPlaced_performs hu (hu.cfg ▸ hwf) h, decodeSym_ne_reset hi⟩
    · cases h
  · cases h

/-- A step performs one operation, `RESET` only for a word with `rst == 1`. -/
theorem step_next {s t : State} (h : step s = .next t) : ∃ i, Performs i s t ∧
    (i = .reset → ∃ w grant slots rest, s.inputs = .word w grant slots :: rest ∧ OpWord.rst w = true) := by
  unfold step nextStep at h
  split at h
  · split at h
    · exact ⟨.nop, runPlaced_performs (SameCore.refl s) rfl h, nofun⟩
    · rename_i st rest hin
      have hu := SameCore.withInputs s rest
      cases st with
      | word w grant slots =>
        rcases issueWord_next hu h with hp | hp
        · exact ⟨.flush, hp, nofun⟩
        · exact ⟨decodeOp w, hp, fun hr => ⟨w, grant, slots, rest, hin, decodeOp_eq_reset hr⟩⟩
      | symbol code d slots =>
        obtain ⟨i, hp, hne⟩ := issueSymbol_next hu h
        exact ⟨i, hp, fun hr => absurd hr hne⟩
  · cases h

theorem step_advances {s t : State} (hs : s.Inv) (h : step s = .next t) : Advances s t := by
  obtain ⟨i, ⟨hwf, u, v, hu, hv, ht⟩, -⟩ := step_next h
  have hsu := hu.advances hs
  have huv := exec_advances hsu.inv (hu.cfg.symm ▸ hwf) hv
  exact (hsu.trans huv).trans (ht.advances huv.inv)

/-- Settles O2: a step is one allowed operation between changes of what is pending, and every such operation keeps the invariant. -/
theorem stepKeepsInvariant : Obligations.StepKeepsInvariant :=
  fun _ _ hs h => (step_advances hs h).inv

/-- Settles O46: what every allowed operation adds to the histories, and that it leaves the straps, is part of `Advances`. -/
theorem historiesOnlyGrowAndStrapsStay : Obligations.HistoriesOnlyGrowAndStrapsStay := by
  intro s t hs h
  obtain ⟨-, hsink, herr, hcfg⟩ := step_advances hs h
  exact ⟨hsink, herr, hcfg⟩

/-- Settles O47: the one operation of the step is `RESET`, since any other leaves a halted core as it is. -/
theorem onlyResetLeavesFatal : Obligations.OnlyResetLeavesFatal := by
  intro s t hs h ht
  obtain ⟨i, ⟨-, u, v, hu, hv, hvt⟩, hreset⟩ := step_next h
  refine hreset (by_contra fun hi => ?_)
  have huf : u.fatal = true := hu.fatal.trans hs
  obtain rfl := Host.Outcome.next.inj ((exec_of_fatal huf hi).symm.trans hv)
  rw [hvt.fatal, huf] at ht
  cases ht

/-- Settles O1: the registers RESET leaves are constants, and both histories are empty. -/
theorem resetStateMeetsInvariant : Obligations.ResetStateMeetsInvariant := by
  intro c presented hc
  refine (SameCore.withInputs _ presented).inv ⟨hc, fun _ => ?_, ?_, ?_, ?_, ?_, ?_, ?_, ?_, ?_, ?_⟩ <;> simp [State.resetWith, Memory.wf]

/-- The invariant holds where a run starts and every step keeps it. -/
theorem Reachable.inv {s : State} (h : Reachable s) : s.Inv := by
  induction h with
  | start c presented hc => exact resetStateMeetsInvariant c presented hc
  | next _ hstep ih => exact stepKeepsInvariant _ _ ih hstep

/-- Settles O3: the clauses of R22 are those of the invariant; (c) is the type of `phase`. -/
theorem runStatesMeetRegisterInvariants : Obligations.RunStatesMeetRegisterInvariants := by
  intro s h
  have hs := h.inv
  refine ⟨hs.bitCountLive, hs.lenMax, ?_, hs.phasePermissive, hs.bursts, hs.fatalEmpty⟩
  cases s.phase <;> simp

end Sys2Proof.Machine
end

section
/-! Which operations write which register (10 R10 to R21). -/

namespace Sys2Proof.Machine

/-- A bit inside a byte, in Compact mode, is only stored and counted (43 R130). -/
theorem submitBit_sameBuf {b : Bool} {s t : State} (hv : s.cfg.verbosity ≠ .trace) (h7 : s.bitCount ≠ 7)
    (h : (submitBit b s).outcome = .next t) : SameBuf s t := by
  have hc : s.cfg.verbosity = .compact := by
    cases hσ : s.cfg.verbosity with
    | compact => rfl
    | trace => exact absurd hσ hv
  simp only [submitBit, hc, storeBit] at h
  split at h
  · have h8 : s.bitCount + 1 ≠ 8 := by bv_omega
    rw [State.withBitCount_bitCount, if_neg h8] at h
    obtain rfl := Host.Outcome.next.inj h
    exact ⟨rfl, rfl, rfl, rfl, rfl, rfl⟩
  · cases h

/-- What a submitted bit writes, and when (42 R109, 43 R130, R134). -/
structure BitWrites (s t : State) : Prop where
  riseTs : t.riseTs = s.riseTs
  phase : t.phase ≠ s.phase → endsSequence s
  frameIndex : t.frameIndex ≠ s.frameIndex → endsSequence s
  framePos : t.framePos ≠ s.framePos → s.bitCount = 7
  mem : t.mem ≠ s.mem → s.cfg.verbosity = .trace ∨ s.bitCount = 7
  len : t.len ≠ s.len → s.cfg.verbosity = .trace ∨ s.bitCount = 7
  fatal : t.fatal ≠ s.fatal → s.bitCount = 7
  sink : t.sink ≠ s.sink → s.cfg.verbosity = .trace ∨ s.bitCount = 7
  err : t.err = s.err
  cfg : t.cfg = s.cfg

theorem submitBit_writes {b : Bool} {s t : State} (hs : s.Inv) (hf : s.fatal = false) (h : (submitBit b s).outcome = .next t) :
    BitWrites s t := by
  obtain ⟨hr, hp⟩ := (submitBit_ran b hs.legal hs.bufInv hf (hs.bitCountLive hf)).next h
  have hbuf : ¬(s.cfg.verbosity = .trace ∨ s.bitCount = 7) → SameBuf s t := fun hn =>
    submitBit_sameBuf (fun hv => hn (.inl hv)) (fun h7 => hn (.inr h7)) h
  have hmid (h7 : s.bitCount ≠ 7) : t.fatal = s.fatal ∧ t.framePos = s.framePos := by
    obtain ⟨hlive, -, -, hpos, -⟩ := hp.onMid h7
    exact ⟨hlive.trans hf.symm, hpos⟩
  exact {
    riseTs := hp.kept.riseTs
    phase := not_imp_comm.mp fun hn => (hp.phase_frameIndex_eq hn).1
    frameIndex := not_imp_comm.mp fun hn => (hp.phase_frameIndex_eq hn).2
    framePos := not_imp_comm.mp fun h7 => (hmid h7).2
    mem := not_imp_comm.mp fun hn => (hbuf hn).mem
    len := not_imp_comm.mp fun hn => (hbuf hn).len
    fatal := not_imp_comm.mp fun h7 => (hmid h7).1
    sink := not_imp_comm.mp fun hn => (hbuf hn).sink
    err := hp.err
    cfg := hr.cfg }

/-- A strict confirmation that is not expected zeroes the counters, and nothing else (42 R103). -/
theorem handleFrameConfS_of_idle {s : State} (h : s.phase = .idle) : handleFrameConfS s = .done (s.zeroCounters.withPhase .idle) := by
  simp [handleFrameConfS, h]

/-- `INVALID` leaves the buffer alone (42 R107). -/
theorem handleInvalid_sameBuf {d : Ts} {s t : State} (h : (handleInvalid d s).outcome = .next t) : SameBuf s t := by
  obtain rfl := Host.Outcome.next.inj h
  split <;> exact ⟨rfl, rfl, rfl, rfl, rfl, rfl⟩

/-- Settles O45, row by row: a halted core writes nothing but in RESET, and the registers each handler leaves alone are in its `Ran` law. -/
theorem onlyTheseOperationsWriteEachRegister : Obligations.OnlyTheseOperationsWriteEachRegister := by
  intro i s t hs hedge h
  by_cases hreset : i = .reset
  · subst hreset
    obtain rfl := Host.Outcome.next.inj h
    simp
  by_cases hf : s.fatal = true
  · obtain rfl := Host.Outcome.next.inj ((exec_of_fatal hf hreset).symm.trans h)
    simp
  rw [Bool.not_eq_true] at hf
  have hb := hs.bufInv
  cases i with
  | reset => exact absurd rfl hreset
  | edgeFall ts => exact absurd rfl (hedge ts)
  | nop =>
    obtain rfl := Host.Outcome.next.inj h
    simp
  | frameConfP =>
    obtain ⟨-, rfl⟩ := (handleFrameConfP_ran hb hf).next (outcome_of_unlessFatal hf h)
    simp
  | edgeRise ts =>
    rw [exec_edgeRise] at h
    obtain rfl := Host.Outcome.next.inj (outcome_of_unlessFatal hf h)
    simp
  | flush =>
    obtain rfl := execFlush_next hs h
    have hr := flushed_regs s
    simp [hf, hr.riseTs, hr.phase, hr.frameIndex, hr.framePos, hr.bitCount, hr.bits, hr.err]
  | msgStart =>
    obtain ⟨hr, hp⟩ := (handleMsgStart_ran hb hf).next (outcome_of_unlessFatal hf h)
    simp [hp.kept.riseTs, hp.bits, hr.cfg]
  | frameConfS =>
    have h := outcome_of_unlessFatal hf h
    by_cases hi : s.phase = .idle
    · rw [handleFrameConfS_of_idle hi] at h
      obtain rfl := Host.Outcome.next.inj h
      simp
    · obtain ⟨hr, hp⟩ := (handleFrameConfS_ran hb hf).next h
      simp [hp.kept.riseTs, hp.bits, hp.err, hr.cfg, hi]
  | frameStart =>
    obtain ⟨hr, hp⟩ := (handleFrameStart_ran hb hf).next (outcome_of_unlessFatal hf h)
    simp [hp.kept.riseTs, hp.phase, hp.bits, hr.cfg]
  | invalid d =>
    have h := outcome_of_unlessFatal hf h
    obtain ⟨-, hp⟩ := (handleInvalid_ran d hb hf).next h
    have hk := handleInvalid_sameBuf h
    simp [hp.kept.riseTs, hp.bits, hk.mem, hk.len, hk.fatal, hk.sink, hk.cfg]
  | bit0 | bit1 =>
    have hw := submitBit_writes hs hf (outcome_of_unlessFatal hf h)
    simpa [hw.riseTs, hw.err, hw.cfg] using ⟨hw.phase, hw.frameIndex, hw.framePos, hw.mem, hw.len, hw.fatal, hw.sink⟩

end Sys2Proof.Machine
end

section
/-! The status outputs (10 R19). -/

namespace Sys2Proof.Machine

@[simp] theorem inSequence_eq_true (s : State) : s.inSequence = true ↔ s.phase = .inMsg := by simp [State.inSequence]

@[simp] theorem bufEmpty_eq_true (s : State) : s.bufEmpty = true ↔ s.len = 0 := by simp [State.bufEmpty]

/-- Settles O59: the outputs are read off the registers, and a step that halts the core leaves the buffer empty by the invariant. -/
theorem statusOutputsFollowTheState : Obligations.StatusOutputsFollowTheState := by
  refine ⟨fun s => ⟨inSequence_eq_true s, Iff.rfl, bufEmpty_eq_true s⟩, fun s t hs => ⟨?_, ?_, ?_, ?_, ?_⟩⟩
  · intro h
    obtain rfl := Host.Outcome.next.inj h
    exact ⟨rfl, rfl, rfl⟩
  · intro h
    rw [execFlush_next hs h]
    split
    · rename_i hf
      exact ⟨(bufEmpty_eq_true s).mpr (hs.fatalEmpty hf), rfl, rfl⟩
    · exact ⟨(bufEmpty_eq_true _).mpr (flushed_len s), by rw [State.inSequence, (flushed_regs s).phase]; rfl, flushed_fatal s⟩
  · intro d hf h
    have h := outcome_of_unlessFatal hf h
    obtain ⟨-, hp⟩ := (handleInvalid_ran d hs.bufInv hf).next h
    have hk := handleInvalid_sameBuf h
    exact ⟨by simp [State.inSequence, hp.phase], hk.fatal.trans hf, by simp only [State.bufEmpty, hk.len]⟩
  · intro hf h
    obtain ⟨hr, hp⟩ := (handleMsgStart_ran hs.bufInv hf).next (outcome_of_unlessFatal hf h)
    rw [inSequence_eq_true, hp.phase, hr.cfg]
    split <;> simp_all
  · intro h hfatal
    exact (bufEmpty_eq_true t).mpr ((stepKeepsInvariant s t hs h).fatalEmpty hfatal)

end Sys2Proof.Machine
end

section
/-! The cells of `buf`: MemRead and MemWrite (20 R41), and what a flush leaves (44 R141). -/

namespace Sys2Proof.Machine

/-- A span, cell by cell. -/
theorem Memory.readSpan_eq_map (m : Memory) (a n : Nat) : m.readSpan a n = (List.range n).map fun i => m.read (a + i) := by
  induction n generalizing a with
  | zero => rfl
  | succ n ih => simp [Memory.readSpan, ih, List.range_succ_eq_map, Nat.add_assoc, Nat.add_comm 1]

/-- The cell at `a + i` holds character `i` of the text written at `a`. -/
theorem Memory.read_writeSpan_inside (t : Text) (m : Memory) (a : Nat) (hm : Memory.wf m) {i : Nat} (h : i < t.length) :
    Memory.read (Memory.writeSpan m a t) (a + i) = t[i] := by
  have hspan := Memory.readSpan_writeSpan_self t m a hm
  rw [Memory.readSpan_eq_map] at hspan
  calc Memory.read (Memory.writeSpan m a t) (a + i)
      = ((List.range t.length).map fun i => Memory.read (Memory.writeSpan m a t) (a + i))[i]'(by simpa using h) := by simp
    _ = t[i] := by simp only [hspan]

theorem memRead_of_le {s : State} {addr n : Nat} (h : addr + n ≤ s.cfg.cap) : memRead s addr n = .ok (s.mem.readSpan addr n) :=
  if_pos h

theorem memRead_of_lt {s : State} {addr n : Nat} (h : s.cfg.cap < addr + n) : memRead s addr n = .error .bufferRange :=
  if_neg (Nat.not_le.mpr h)

theorem memWrite_of_le {s : State} {addr : Nat} {t : Text} (h : addr + t.length ≤ s.cfg.cap) :
    memWrite s addr t = .done (s.withMem (s.mem.writeSpan addr t)) :=
  if_pos h

theorem memWrite_of_lt {s : State} {addr : Nat} {t : Text} (h : s.cfg.cap < addr + t.length) :
    memWrite s addr t = .fault .bufferRange :=
  if_neg (Nat.not_le.mpr h)

/-- Settles O36: the cells inside the span by what reading the whole span back returns, the cells outside it by the law of `writeSpan`. -/
theorem memWriteThenMemRead : Obligations.MemWriteThenMemRead := by
  intro s addr hm
  refine ⟨fun n hn => ?_, fun t ht => ⟨_, memWrite_of_le ht, Memory.wf_writeSpan t s.mem addr hm, rfl, fun i hi => ?_, fun a ha => ?_⟩⟩
  · rw [memRead_of_le hn, Memory.readSpan_eq_map]
  · exact Memory.read_writeSpan_inside t s.mem addr hm hi
  · exact Memory.read_writeSpan_outside t s.mem addr a ha

/-- Settles O37: the bound is the first thing both operations test. -/
theorem accessPastTheLastCellStops : Obligations.AccessPastTheLastCellStops :=
  fun _ _ _ h => ⟨memWrite_of_lt h, memRead_of_lt h⟩

/-- An empty buffer is not flushed (44 R141). -/
theorem flush_of_len_eq_zero {s : State} (h : s.len = 0) : flush s = .done s := by
  simp [flush, h]

/-- A completed flush leaves the buffer empty. -/
theorem flush_done_len {s t : State} (h : flush s = .done t) : t.len = 0 := by
  unfold flush at h
  split at h
  · split at h
    · obtain rfl := Flow.done.inj h
      rfl
    · cases h
  · obtain rfl := Flow.done.inj h
    omega

/-- Settles O35: the first flush leaves the buffer empty, and an empty buffer is not flushed. -/
theorem flushIsIdempotent : Obligations.FlushIsIdempotent :=
  fun _ _ h => flush_of_len_eq_zero (flush_done_len h)

end Sys2Proof.Machine
end

section
/-! What every operation does to the buffer and the error channel, said once for all of them (20 R48, R50), and that none faults. -/

namespace Sys2Proof.Machine

/-- The bit that ends the sequence is the one symbol with a flush of its own (42 R109). -/
def symbolFlushes (y : Symbol) (s : State) : Bool :=
  match y with
  | .bit0 | .bit1 => decide (endsSequence s)
  | .msgStart | .frameConf | .frameStart | .invalid => false

theorem decide_bit_and_endsSequence (y : Symbol) (s : State) :
    decide ((y = .bit0 ∨ y = .bit1) ∧ endsSequence s) = symbolFlushes y s := by
  cases y <;> simp [symbolFlushes]

/-- Every handler hands over the fragments of its symbol and raises the warnings of its symbol (42 R100 to R107). -/
theorem handle_ran (y : Symbol) (d : Ts) {s : State} (hs : s.Inv) (hf : s.fatal = false) :
    Ran (symbolFlushes y s) (symbolFragments y s) s (handle y d s) fun t => t.err = s.err ++ symbolWarnings y d s := by
  have hb := hs.bufInv
  have bit (b : Bool) : Ran (decide (endsSequence s)) (bitFragments b s) s (submitBit b s) fun t => t.err = s.err ++ [] :=
    (submitBit_ran b hs.legal hb hf (hs.bitCountLive hf)).imp fun t hp => by rw [hp.err, List.append_nil]
  cases y with
  | msgStart => exact (handleMsgStart_ran hb hf).imp fun _ hp => hp.err
  | frameConf =>
    by_cases hσ : s.cfg.strictness = .permissive
    · simpa [handle, symbolFlushes, symbolFragments, symbolWarnings, hσ] using (handleFrameConfP_ran hb hf).imp fun _ hp => congrArg State.err hp
    · simpa [handle, symbolFlushes, symbolFragments, symbolWarnings, hσ] using (handleFrameConfS_ran hb hf).imp fun _ hp => hp.err
  | frameStart => exact (handleFrameStart_ran hb hf).imp fun _ hp => hp.err
  | bit0 => exact bit false
  | bit1 => exact bit true
  | invalid => exact (handleInvalid_ran d hb hf).imp fun _ hp => hp.err

theorem unlessFatal_of_live {s : State} (hf : s.fatal = false) (f : State → Flow) : unlessFatal s f = (f s).outcome := by
  rw [unlessFatal, if_neg (by simp [hf])]

/-- `FLUSH` is the flush of the buffer and nothing more (44 R142). -/
theorem flush_ran {s : State} (hb : BufInv s) (hf : s.fatal = false) :
    Ran true [] s (flusherFlush s) fun t => t.err = s.err := by
  have h := Ran.flushLast (g := id) (post := fun t => t.err = s.err) hb hf SameBuf.refl (flushed_regs s).err
  rw [flush_eq hb.lenMax] at h
  rwa [flusherFlush, if_neg (by simp [hf]), flush_eq hb.lenMax]

/-- Every operation but RESET, from a live state, is one run: its fragments in order, its own flush at the end, its warnings. -/
theorem exec_ran {i : Instr} {s : State} (hs : s.Inv) (hf : s.fatal = false) (hi : i ≠ .reset) :
    ∃ r : Flow, exec i s = r.outcome ∧
      Ran (flushesAtEnd i s) (fragmentsOf i s) s r fun t => t.err = s.err ++ warningsOf i s := by
  have hb := hs.bufInv
  have symbol (y : Symbol) (d : Ts) : ∃ r, unlessFatal s (handle y d) = r.outcome ∧
      Ran (symbolFlushes y s) (symbolFragments y s) s r fun t => t.err = s.err ++ symbolWarnings y d s :=
    ⟨_, unlessFatal_of_live hf _, handle_ran y d hs hf⟩
  simp only [flushesAtEnd, fragmentsOf, warningsOf, hf, Bool.not_false, Bool.true_and, Bool.false_eq_true, if_false]
  cases i with
  | reset => exact absurd rfl hi
  | nop => exact ⟨.done s, rfl, Ran.done hb hf (SameBuf.refl s) (List.append_nil _).symm⟩
  | flush => exact ⟨_, rfl, by simpa using flush_ran hb hf⟩
  | edgeRise ts =>
    exact ⟨_, (exec_edgeRise ts s).trans (unlessFatal_of_live hf _),
      Ran.done hb hf ⟨rfl, rfl, rfl, rfl, rfl, rfl⟩ (List.append_nil _).symm⟩
  | edgeFall ts =>
    simp only [decide_bit_and_endsSequence]
    exact symbol _ _
  | frameConfP => exact ⟨_, unlessFatal_of_live hf _, (handleFrameConfP_ran hb hf).imp fun _ hp => by simp [hp]⟩
  | frameConfS => exact ⟨_, unlessFatal_of_live hf _, (handleFrameConfS_ran hb hf).imp fun _ hp => by simp [hp.err]⟩
  | msgStart => exact symbol .msgStart 0
  | frameStart => exact symbol .frameStart 0
  | bit0 => exact symbol .bit0 0
  | bit1 => exact symbol .bit1 0
  | invalid d => exact symbol .invalid d

/-- The same as a next state. -/
theorem exec_ranTo {i : Instr} {s : State} (hs : s.Inv) (hf : s.fatal = false) (hi : i ≠ .reset) :
    ∃ r t, exec i s = .next t ∧ RanTo (flushesAtEnd i s) (fragmentsOf i s) s r t ∧ t.err = s.err ++ warningsOf i s := by
  obtain ⟨r, hr, hran⟩ := exec_ran hs hf hi
  obtain ⟨t, ht, hto⟩ := hran.outcome
  exact ⟨r, t, hr.trans ht, hto⟩

/-! ### No operation faults -/

theorem exec_completes (i : Instr) {s : State} (hs : s.Inv) : ∃ t, exec i s = .next t := by
  by_cases hi : i = .reset
  · subst hi; exact ⟨_, rfl⟩
  · cases hf : s.fatal with
    | true => exact ⟨s, exec_of_fatal hf hi⟩
    | false =>
      obtain ⟨-, t, ht, -⟩ := exec_ranTo hs hf hi
      exact ⟨t, ht⟩

/-- The end of an operation with placements adds no fault. -/
theorem runPlaced_completes (i : Instr) (slots : List Bool) {s : State} (hs : s.Inv) : ∃ t, runPlaced i slots s = .next t := by
  have hslots : SameCore s (s.withSlots slots) := ⟨s.inputs, slots, rfl⟩
  obtain ⟨t, ht⟩ := exec_completes i (hslots.inv hs)
  rw [runPlaced, ht]
  simp only [settle]
  split <;> exact ⟨_, rfl⟩

theorem issueWord_completes (w : OpWord) (grant : Nat) (slots : List Bool) {s : State} (hs : s.Inv) :
    ∃ t, issueWord w grant slots s = .next t := by
  unfold issueWord
  split
  · cases grant with
    | zero => exact runPlaced_completes .flush [] ((SameCore.withInputs s _).inv hs)
    | succ k => exact runPlaced_completes _ _ hs
  · split
    · exact runPlaced_completes _ _ hs
    · exact runPlaced_completes _ [] hs

/-- A symbol presented to `Handle` is refused or completes (30 R69 (b), 42 R107). -/
theorem issueSymbol_ne_fault (code : BitVec 3) (d : Ts) (slots : List Bool) {s : State} (hs : s.Inv) (f : Fault) :
    issueSymbol code d slots s ≠ .fault f := by
  unfold issueSymbol
  split
  · rename_i i _
    split
    · obtain ⟨t, ht⟩ := runPlaced_completes i slots hs
      simp [ht]
    · simp
  · simp

/-- Settles O4: every operation completes from a state that meets the invariant, so a step completes or is refused. -/
theorem stepNeverFaults : Obligations.StepNeverFaults := by
  intro s f hs
  rw [step, nextStep, if_pos hs.legal]
  split
  · obtain ⟨t, ht⟩ := runPlaced_completes .nop [] hs
    simp [runPlain, ht]
  · rename_i st rest _
    have hrest := (SameCore.withInputs s rest).inv hs
    cases st with
    | word w grant slots =>
      obtain ⟨t, ht⟩ := issueWord_completes w grant slots hrest
      simp [issue, ht]
    | symbol code d slots => exact issueSymbol_ne_fault code d slots hrest f

/-! ### What an operation shows -/

/-- An operation with a flush of its own is FLUSH or hands over a byte. -/
theorem fragmentsOf_ne_nil_of_flushesAtEnd {i : Instr} {s : State} (hi : i ≠ .flush) (he : flushesAtEnd i s = true) : fragmentsOf i s ≠ [] := by
  have bit (b : Bool) (h : endsSequence s) : bitFragments b s ≠ [] := by simp [bitFragments, h.1]
  simp only [flushesAtEnd, Bool.and_eq_true, Bool.not_eq_true'] at he
  obtain ⟨hf, he⟩ := he
  cases i with
  | flush => exact absurd rfl hi
  | edgeFall ts =>
    obtain ⟨hy | hy, h⟩ := of_decide_eq_true he <;> simpa [fragmentsOf, hf, symbolFragments, hy] using bit _ h
  | bit0 | bit1 => simpa [fragmentsOf, hf] using bit _ (of_decide_eq_true he)
  | reset | edgeRise | nop | msgStart | frameConfP | frameConfS | frameStart | invalid => cases he

/-- The length and the sink, read off the buffer seen as texts. -/
theorem len_sink_of_output {t : State} {o : Output} (h : t.output = o) : t.len = o.waiting.length ∧ t.sink = o.sink := by
  subst h
  exact ⟨t.bufText_length.symm, rfl⟩

/-- Settles O38: the run of the operation says what is shown, and the laws of `Output` what that leaves waiting in each of the three cases. -/
theorem everyOperationShowsItsFragmentsInOrder : Obligations.EveryOperationShowsItsFragmentsInOrder := by
  intro i s hs hf hi
  obtain ⟨r, t, ht, hr, herr⟩ := exec_ranTo hs hf hi
  have hout := hr.output
  refine ⟨t, ht, hr.appended, herr, fun hflush hnil => ?_, fun he hslots hfit => ?_, fun he => ?_⟩
  · have he : flushesAtEnd i s = false :=
      Bool.eq_false_iff.mpr fun he => fragmentsOf_ne_nil_of_flushesAtEnd hflush he hnil
    rw [hnil, he, List.map_nil, Output.run_nil, Output.finish_false] at hout
    simpa using len_sink_of_output hout
  · rw [List.flatMap_def] at hfit ⊢
    rw [he, hslots, Output.finish_false, Output.run_of_fits _ _ _ (by simpa using hfit)] at hout
    simpa using len_sink_of_output hout
  · rw [he, Output.finish_true] at hout
    simpa using (len_sink_of_output hout).1

end Sys2Proof.Machine
end

section
/-! Where bursts end (20 R43, 44 R144, R148 (c)): a relation between outputs that composes, and holds of every buffer step. -/

namespace Sys2Proof.Machine

/-- Each of these bursts, the text `w` waiting before them, ends after `w` and a whole number of the texts `ts`. -/
def EndsBetween (w : Text) (ts bs : List Text) : Prop :=
  ∀ k, 1 ≤ k → k ≤ bs.length → ∃ m, m ≤ ts.length ∧ (bs.take k).flatten = w ++ (ts.take m).flatten

/-- From `o` to `p` the texts `ts` are handed over whole and in order, and no new burst ends inside one of them. -/
def Output.Takes (ts : List Text) (o p : Output) : Prop :=
  ∃ bs, p.sink = o.sink ++ bs ∧ bs.flatten ++ p.waiting = o.waiting ++ ts.flatten ∧ EndsBetween o.waiting ts bs

theorem EndsBetween.nil (w : Text) (ts : List Text) : EndsBetween w ts [] := by
  intro k h1 h2
  simp only [List.length_nil] at h2
  omega

theorem EndsBetween.append {w v : Text} {ts us bs cs : List Text} (hb : EndsBetween w ts bs) (hv : bs.flatten ++ v = w ++ ts.flatten)
    (hc : EndsBetween v us cs) : EndsBetween w (ts ++ us) (bs ++ cs) := by
  intro k h1 hk
  rw [List.length_append] at hk
  by_cases hkb : k ≤ bs.length
  · obtain ⟨m, hm, h⟩ := hb k h1 hkb
    exact ⟨m, by rw [List.length_append]; omega, by rw [List.take_append_of_le_length hkb, List.take_append_of_le_length hm, h]⟩
  · obtain ⟨m, hm, h⟩ := hc (k - bs.length) (by omega) (by omega)
    refine ⟨ts.length + m, by rw [List.length_append]; omega, ?_⟩
    calc ((bs ++ cs).take k).flatten
        = bs.flatten ++ (cs.take (k - bs.length)).flatten := by
          rw [List.take_append, List.take_of_length_le (by omega), List.flatten_append]
      _ = bs.flatten ++ (v ++ (us.take m).flatten) := by rw [h]
      _ = w ++ (ts.flatten ++ (us.take m).flatten) := by rw [← List.append_assoc, hv, List.append_assoc]
      _ = w ++ ((ts ++ us).take (ts.length + m)).flatten := by rw [List.take_length_add_append, List.flatten_append]

theorem Output.Takes.refl (o : Output) : o.Takes [] o := ⟨[], by simp, by simp, EndsBetween.nil _ _⟩

theorem Output.Takes.trans {ts us : List Text} {o p q : Output} (h : Output.Takes ts o p) (k : Output.Takes us p q) :
    Output.Takes (ts ++ us) o q := by
  obtain ⟨bs, hs, hw, he⟩ := h
  obtain ⟨cs, ks, kw, ke⟩ := k
  refine ⟨bs ++ cs, by rw [ks, hs, List.append_assoc], ?_, he.append hw ke⟩
  rw [List.flatten_append, List.flatten_append, List.append_assoc, kw, ← List.append_assoc, hw, List.append_assoc]

/-- The burst of the waiting text ends before every text handed over. -/
theorem EndsBetween.waiting (w : Text) (ts : List Text) : EndsBetween w ts [w] := by
  intro k h1 h2
  obtain rfl : k = 1 := Nat.le_antisymm h2 h1
  exact ⟨0, Nat.zero_le _, by simp⟩

theorem Output.takes_flush (o : Output) : o.Takes [] o.flush := by
  unfold Output.flush
  split
  · exact Takes.refl o
  · exact ⟨[o.waiting], rfl, by simp, EndsBetween.waiting _ _⟩

theorem Output.takes_join (t : Text) (o : Output) : o.Takes [t] ⟨o.sink, o.waiting ++ t⟩ :=
  ⟨[], by simp, by simp, EndsBetween.nil _ _⟩

theorem Output.takes_append (cap : Nat) (t : Text) (o : Output) : o.Takes [t] (o.append cap t) := by
  unfold Output.append
  split
  · exact takes_join t o
  · simpa using o.takes_flush.trans (takes_join t o.flush)

theorem Output.takes_finish (o : Output) (e : Bool) : o.Takes [] (o.finish e) := by
  cases e with
  | false => exact Takes.refl o
  | true => exact o.takes_flush

/-- A run takes the texts before the first oversized one. -/
theorem Output.takes_run (cap : Nat) (ts : List Text) (ps : List Bool) (o : Output) :
    o.Takes (ts.takeWhile fun t => decide (t.length ≤ cap)) (o.run cap ts ps) := by
  induction ts generalizing ps o with
  | nil => exact Takes.refl o
  | cons t ts ih =>
    unfold Output.run
    split
    · rename_i hfit
      have hplaced : o.Takes [t] (if ps.head? = some true then (o.append cap t).flush else o.append cap t) := by
        split
        · exact (takes_append cap t o).trans (takes_flush _)
        · exact takes_append cap t o
      simpa [hfit] using hplaced.trans (ih ps.tail _)
    · rename_i hfit
      simpa [hfit] using o.takes_flush

theorem outputAfter_takes (i : Instr) (s : State) :
    s.output.Takes (((fragmentsOf i s).takeWhile (fits s.cfg)).map (fragmentText s.cfg)) (outputAfter i s) := by
  have h := (Output.takes_run s.cfg.cap ((fragmentsOf i s).map (fragmentText s.cfg)) s.slots s.output).trans
    (Output.takes_finish _ (flushesAtEnd i s))
  rw [List.append_nil, List.takeWhile_map] at h
  exact h

/-- A halted core hands over nothing. -/
theorem outputAfter_of_fatal (i : Instr) {s : State} (hf : s.fatal = true) : outputAfter i s = s.output := by
  simp [outputAfter, fragmentsOf, flushesAtEnd, hf, Output.run]

theorem exec_output {i : Instr} {s : State} (hs : s.Inv) (hi : i ≠ .reset) : ∃ t, exec i s = .next t ∧ t.output = outputAfter i s := by
  cases hf : s.fatal with
  | true => exact ⟨s, exec_of_fatal hf hi, (outputAfter_of_fatal i hf).symm⟩
  | false =>
    obtain ⟨r, t, ht, hr, -⟩ := exec_ranTo hs hf hi
    exact ⟨t, ht, hr.output⟩

/-- Settles O39: the output of the operation is the one its run gives, and every buffer step in it ends its bursts between texts. -/
theorem burstsEndBetweenFragmentsWhereTheBufferRulesSay : Obligations.BurstsEndBetweenFragmentsWhereTheBufferRulesSay := by
  intro i s hs hi
  obtain ⟨t, ht, hout⟩ := exec_output hs hi
  obtain ⟨bs, hsink, -, hbs⟩ := outputAfter_takes i s
  refine ⟨t, ht, hout, bs, by rw [← hout] at hsink; exact hsink, fun k h1 hk => ?_⟩
  obtain ⟨m, hm, h⟩ := hbs k h1 hk
  rw [List.length_map] at hm
  exact ⟨m, hm, by rw [h, ← List.map_take, List.flatMap_def, State.output_waiting]⟩

end Sys2Proof.Machine
end

section
/-! The encodings: the fields of an operation word (30 R60, R61) and of a dispatch value (30 R62), and what the decoder reads from them. -/

namespace Sys2Proof.Machine

/-! ### Operation words -/

@[simp] theorem edgeTs_make (c : BitVec 4) (ts : Ts) : OpWord.edgeTs (OpWord.make c ts) = ts :=
  BitVec.extractLsb'_append_eq_right

theorem rst_eq (w : OpWord) : OpWord.rst w = (OpWord.ctl w).getLsbD 3 := by simp [OpWord.rst, OpWord.ctl]
theorem flushReq_eq (w : OpWord) : OpWord.flushReq w = (OpWord.ctl w).getLsbD 2 := by simp [OpWord.flushReq, OpWord.ctl]
theorem edgeValid_eq (w : OpWord) : OpWord.edgeValid w = (OpWord.ctl w).getLsbD 1 := by simp [OpWord.edgeValid, OpWord.ctl]
theorem edgeDir_eq (w : OpWord) : OpWord.edgeDir w = (OpWord.ctl w).getLsbD 0 := by simp [OpWord.edgeDir, OpWord.ctl]

/-- The decoder looks at the four bits of the control field and hands on the timestamp. -/
theorem decodeOp_make (c : BitVec 4) (ts : Ts) : decodeOp (OpWord.make c ts) =
    if c.getLsbD 3 then .reset
    else if c.getLsbD 1 then if c.getLsbD 0 then .edgeRise ts else .edgeFall ts
    else if c.getLsbD 2 then .flush
    else .nop := by
  simp only [decodeOp, rst_eq, edgeValid_eq, edgeDir_eq, flushReq_eq, Laws.RowMatch.ctl_make, edgeTs_make]

/-- A port operation is encoded as an operation word. -/
theorem exists_encode_decodeOp (σ : Strictness) (w : OpWord) : ∃ v, encode σ (decodeOp w) = .op v := by
  unfold decodeOp
  repeat' split
  all_goals exact ⟨_, rfl⟩

/-! The rows of 30 R61, bit by bit. -/

theorem resetRow_iff : ∀ c : BitVec 4, c &&& 0b1000 = 0b1000 ↔ c.getLsbD 3 = true := by decide
theorem edgeRiseRow_iff : ∀ c : BitVec 4, c &&& 0b1011 = 0b0011 ↔ c.getLsbD 3 = false ∧ c.getLsbD 1 = true ∧ c.getLsbD 0 = true := by decide
theorem edgeFallRow_iff : ∀ c : BitVec 4, c &&& 0b1011 = 0b0010 ↔ c.getLsbD 3 = false ∧ c.getLsbD 1 = true ∧ c.getLsbD 0 = false := by decide
theorem flushRow_iff : ∀ c : BitVec 4, c &&& 0b1100 = 0b0100 ↔ c.getLsbD 3 = false ∧ c.getLsbD 2 = true := by decide
theorem nopRow_iff : ∀ c : BitVec 4, c &&& 0b1110 = 0b0000 ↔ c.getLsbD 3 = false ∧ c.getLsbD 2 = false ∧ c.getLsbD 1 = false := by decide

/-- An operation is among those of a word when the word decodes to it, or when it is the FLUSH asked for beside an edge. -/
theorem mem_opsOf {i : Instr} {w : OpWord} : i ∈ opsOf w ↔ i = decodeOp w ∨ (OpWord.alsoFlush w = true ∧ i = .flush) := by
  unfold opsOf
  split <;> simp_all

/-- Settles O8: both sides are read off the same four bits of the control field. -/
theorem operationWordRowsSelectOperations : Obligations.OperationWordRowsSelectOperations := by
  intro w
  simp only [mem_opsOf, decodeOp, OpWord.alsoFlush, rst_eq, edgeValid_eq, edgeDir_eq, flushReq_eq, resetRow_iff, edgeRiseRow_iff,
    edgeFallRow_iff, flushRow_iff, nopRow_iff]
  generalize OpWord.ctl w = c
  cases c.getLsbD 3 with
  | true => simp
  | false =>
    cases c.getLsbD 1 with
    | true => cases c.getLsbD 0 <;> simp
    | false => cases c.getLsbD 2 <;> simp

/-! ### Dispatch values -/

@[simp] theorem ofStrap_strap (σ : Strictness) : Strictness.ofStrap σ.strap = σ := by cases σ <;> rfl
@[simp] theorem strap_ofStrap (b : Bool) : (Strictness.ofStrap b).strap = b := by cases b <;> rfl

theorem ofBool_append_fields : ∀ (b : Bool) (k : BitVec 3), (BitVec.ofBool b ++ k).getLsbD 3 = b ∧ (BitVec.ofBool b ++ k).extractLsb' 0 3 = k := by
  decide

theorem dispatchValue_strap (σ : Strictness) (y : Symbol) : (dispatchValue σ y).getLsbD 3 = σ.strap := (ofBool_append_fields _ _).1
theorem dispatchValue_code (σ : Strictness) (y : Symbol) : (dispatchValue σ y).extractLsb' 0 3 = y.code := (ofBool_append_fields _ _).2

/-- The strap bit and the code are the whole dispatch value (30 R62). -/
theorem ofBool_append_code : ∀ v : BitVec 4, BitVec.ofBool (v.getLsbD 3) ++ v.extractLsb' 0 3 = v := by decide

/-- The code table, read backwards (30 R62). -/
theorem symbolOfCode_eq_ok_iff {k : BitVec 3} {y : Symbol} : symbolOfCode k = .ok y ↔ k = y.code := by
  cases y <;> revert k <;> decide

theorem symbolOfCode_eq_error_iff : ∀ {k : BitVec 3}, symbolOfCode k = .error .noSuchSymbol ↔ k = 6 ∨ k = 7 := by decide

/-- A dispatch value decodes to the handler that its strap bit and the symbol of its code select (42 R100). -/
theorem decodeSym_eq_ok_iff {v : BitVec 4} {d : Ts} {i : Instr} :
    decodeSym v d = .ok i ↔ ∃ y : Symbol, v.extractLsb' 0 3 = y.code ∧ i = symInstr (Strictness.ofStrap (v.getLsbD 3)) y d := by
  simp only [← symbolOfCode_eq_ok_iff, decodeSym]
  cases symbolOfCode (v.extractLsb' 0 3) with
  | ok y => simp [eq_comm]
  | error e => simp

theorem decodeSym_eq_error_iff {v : BitVec 4} {d : Ts} :
    decodeSym v d = .error .noSuchSymbol ↔ v.extractLsb' 0 3 = 6 ∨ v.extractLsb' 0 3 = 7 := by
  rw [← symbolOfCode_eq_error_iff, decodeSym]
  cases symbolOfCode (v.extractLsb' 0 3) <;> simp

theorem decodeSym_dispatchValue (σ : Strictness) (y : Symbol) (d : Ts) : decodeSym (dispatchValue σ y) d = .ok (symInstr σ y d) :=
  decodeSym_eq_ok_iff.mpr ⟨y, dispatchValue_code σ y, by rw [dispatchValue_strap, ofStrap_strap]⟩

/-- The encoding of the handler a symbol selects is the symbol's dispatch value; `INVALID` keeps its duration. -/
theorem encode_symInstr (σ : Strictness) (y : Symbol) (d : Ts) :
    encode σ (symInstr σ y d) = .sym (dispatchValue σ y) (if y = .invalid then d else 0) := by
  cases y with
  | frameConf => cases σ <;> rfl
  | msgStart | frameStart | bit0 | bit1 | invalid => rfl

/-- The symbol whose handler an instruction is (30 R62); none for a port operation. -/
def handledSymbol : Instr → Option Symbol
  | .reset | .edgeRise _ | .edgeFall _ | .flush | .nop => none
  | .msgStart => some .msgStart
  | .frameConfP | .frameConfS => some .frameConf
  | .frameStart => some .frameStart
  | .bit0 => some .bit0
  | .bit1 => some .bit1
  | .invalid _ => some .invalid

@[simp] theorem handledSymbol_symInstr (σ : Strictness) (y : Symbol) (d : Ts) : handledSymbol (symInstr σ y d) = some y := by
  cases y with
  | frameConf => cases σ <;> rfl
  | msgStart | frameStart | bit0 | bit1 | invalid => rfl

/-- Handlers differ by their symbol, `FRAME_CONF` by the strictness too and `INVALID` by the duration. -/
theorem symInstr_inj {σ τ : Strictness} {y z : Symbol} {d e : Ts} :
    symInstr τ z e = symInstr σ y d ↔ y = z ∧ (z = .frameConf → σ = τ) ∧ (z = .invalid → e = d) := by
  constructor
  · intro h
    obtain rfl : z = y := by simpa using congrArg handledSymbol h
    refine ⟨rfl, ?_, ?_⟩
    · rintro rfl
      cases σ <;> cases τ <;> simp [symInstr] at h ⊢
    · rintro rfl
      exact Instr.invalid.inj h
  · rintro ⟨rfl, hσ, hd⟩
    cases y with
    | frameConf => rw [hσ rfl]; rfl
    | invalid => rw [hd rfl]; rfl
    | msgStart | frameStart | bit0 | bit1 => rfl

/-- What the configuration allows is encoded under the configuration's strap, the two `FRAME_CONF` rows included. -/
theorem encode_dispatchValue_of_wf {c : Cfg} {i : Instr} {v : BitVec 4} {d : Ts} (hi : i.wf c = true) (h : encode c.strictness i = .sym v d) :
    ∃ y, v = dispatchValue c.strictness y := by
  cases i with
  | reset | edgeRise | edgeFall | flush | nop => cases h
  | frameConfP | frameConfS =>
    rw [of_decide_eq_true hi]
    cases h
    exact ⟨_, rfl⟩
  | msgStart | frameStart | bit0 | bit1 | invalid =>
    cases h
    exact ⟨_, rfl⟩

/-- Settles O6: a port operation through the bits of its control field, a handler through the symbol of its dispatch value. -/
theorem decodeInvertsEncode : Obligations.DecodeInvertsEncode := by
  refine ⟨fun σ i => ?_, fun c i v d hi h => ?_⟩
  · cases i with
    | reset | edgeRise | edgeFall | flush | nop => simp [encode, decode, decodeOp_make]
    | frameConfP => exact decodeSym_dispatchValue .permissive .frameConf 0
    | frameConfS => exact decodeSym_dispatchValue .strict .frameConf 0
    | msgStart | frameStart | bit0 | bit1 | invalid => exact decodeSym_dispatchValue σ _ _
  · obtain ⟨y, rfl⟩ := encode_dispatchValue_of_wf hi h
    exact dispatchValue_strap _ _

/-- Settles O7: a dispatch value is put together from the fields the decoder read, and an operation word needs only that decoding
inverts encoding. -/
theorem dispatchValueIsItsEncodingAndWordDecodesLikeItsCanonicalWord :
    Obligations.DispatchValueIsItsEncodingAndWordDecodesLikeItsCanonicalWord := by
  refine ⟨fun v d i h => ?_, fun σ w => ?_⟩
  · obtain ⟨y, hy, rfl⟩ := decodeSym_eq_ok_iff.mp h
    have hv : dispatchValue (Strictness.ofStrap (v.getLsbD 3)) y = v := by
      rw [dispatchValue, strap_ofStrap, ← hy, ofBool_append_code]
    refine ⟨_, by rw [encode_symInstr, hv], fun hinv => ?_⟩
    obtain ⟨hy, -, -⟩ := symInstr_inj (τ := .permissive) (z := .invalid).mp hinv.symm
    exact if_pos hy
  · obtain ⟨v, hv⟩ := exists_encode_decodeOp σ w
    have h := decodeInvertsEncode.1 σ (decodeOp w)
    rw [hv] at h
    exact ⟨v, hv, Except.ok.inj h⟩

/-- What the decoder looks at: the code, for `FRAME_CONF` the strap bit, for `INVALID` the duration beside it. -/
theorem decodeSym_eq_ok_symInstr_iff {v : BitVec 4} {d e : Ts} {σ : Strictness} {y : Symbol} :
    decodeSym v d = .ok (symInstr σ y e) ↔
      v.extractLsb' 0 3 = y.code ∧ (y = .frameConf → v.getLsbD 3 = σ.strap) ∧ (y = .invalid → e = d) := by
  have hσ : Strictness.ofStrap (v.getLsbD 3) = σ ↔ v.getLsbD 3 = σ.strap :=
    ⟨fun h => by rw [← h, strap_ofStrap], fun h => by rw [h, ofStrap_strap]⟩
  simp only [decodeSym_eq_ok_iff, symInstr_inj, hσ]
  exact ⟨fun ⟨_, hk, rfl, h⟩ => ⟨hk, h⟩, fun ⟨hk, h⟩ => ⟨y, hk, rfl, h⟩⟩

/-! The rows of 30 R62: under the mask `0x7` a dispatch value is its code, under `0xF` the strap bit counts too. -/

theorem and_seven_eq_iff : ∀ {v : BitVec 4} (k : BitVec 3), v &&& 0x7 = k.zeroExtend 4 ↔ v.extractLsb' 0 3 = k := by decide

theorem and_fifteen_eq_iff : ∀ {v : BitVec 4} {b : Bool} {k : BitVec 3},
    v &&& 0xF = BitVec.ofBool b ++ k ↔ v.extractLsb' 0 3 = k ∧ v.getLsbD 3 = b := by decide

/-- A symbol that needs neither the strap nor the duration has the row of its code. -/
theorem decodeSym_row (v : BitVec 4) (d : Ts) (y : Symbol) (hc : y ≠ .frameConf) (hd : y ≠ .invalid) :
    decodeSym v d = .ok (symInstr .permissive y d) ↔ v &&& 0x7 = y.code.zeroExtend 4 := by
  rw [decodeSym_eq_ok_symInstr_iff, and_seven_eq_iff]
  simp [hc, hd]

theorem decodeSym_row_frameConf (v : BitVec 4) (d : Ts) (σ : Strictness) :
    decodeSym v d = .ok (symInstr σ .frameConf d) ↔ v &&& 0xF = dispatchValue σ .frameConf := by
  rw [decodeSym_eq_ok_symInstr_iff, dispatchValue, and_fifteen_eq_iff]
  simp

theorem decodeSym_row_invalid (v : BitVec 4) (d e : Ts) :
    decodeSym v d = .ok (symInstr .permissive .invalid e) ↔ v &&& 0x7 = Symbol.invalid.code.zeroExtend 4 ∧ e = d := by
  rw [decodeSym_eq_ok_symInstr_iff, and_seven_eq_iff]
  simp

theorem decodeSym_row_none (v : BitVec 4) (d : Ts) :
    decodeSym v d = .error .noSuchSymbol ↔ v &&& 0x7 = (6 : BitVec 3).zeroExtend 4 ∨ v &&& 0x7 = (7 : BitVec 3).zeroExtend 4 := by
  rw [decodeSym_eq_error_iff, and_seven_eq_iff, and_seven_eq_iff]

/-- Settles O9: each row is the row of its symbol's code, with the strap bit for FRAME_CONF. -/
theorem dispatchValueRowsSelectHandlers : Obligations.DispatchValueRowsSelectHandlers := fun v d =>
  ⟨decodeSym_row v d .msgStart nofun nofun, decodeSym_row_frameConf v d .permissive, decodeSym_row_frameConf v d .strict,
    decodeSym_row v d .frameStart nofun nofun, decodeSym_row v d .bit0 nofun nofun, decodeSym_row v d .bit1 nofun nofun,
    decodeSym_row_invalid v d, decodeSym_row_none v d⟩

/-- Settles O10: the decoder evaluates each of the six closed words. -/
theorem writtenOutWordsDecode : Obligations.WrittenOutWordsDecode := by
  unfold Obligations.WrittenOutWordsDecode
  decide

end Sys2Proof.Machine
end

section
/-! What a step does with each stimulus (30 R61, 42 R100), and that with no placement nothing is added to the operation. -/

namespace Sys2Proof.Machine

/-! ### The instruction a step runs -/

/-- With no placement left the end of an operation adds nothing. -/
theorem settle_next_of_slots_nil {t : State} (h : t.slots = []) : settle (.next t) = .next t := by
  have ht : t.withSlots [] = t := by rw [← h]; rfl
  simp [settle, h, ht]

/-- A word without a flush request beside its edge is one operation; the placements are an edge's. -/
theorem issueWord_of_not_alsoFlush {w : OpWord} (h : OpWord.alsoFlush w = false) (grant : Nat) (slots : List Bool) (s : State) :
    issueWord w grant slots s = runPlaced (decodeOp w) (if OpWord.edgeValid w && !OpWord.rst w then slots else []) s := by
  unfold issueWord
  rw [if_neg (by simp [h])]
  split <;> rfl

theorem issueSymbol_of_wf {code : BitVec 3} {d : Ts} {slots : List Bool} {s : State} {i : Instr}
    (hdec : decodeSym (BitVec.ofBool s.cfg.strictness.strap ++ code) d = .ok i) (hwf : i.wf s.cfg = true) :
    issueSymbol code d slots s = runPlaced i slots s := by
  simp [issueSymbol, hdec, hwf]

theorem step_of_nil {s : State} (hl : s.cfg.legal = true) (h : s.inputs = []) : step s = .next (s.withSlots []) := by
  rw [step, nextStep, if_pos hl, h]
  exact settle_next_of_slots_nil (t := s.withSlots []) rfl

theorem step_of_cons {s : State} {st : Stimulus} {rest : List Stimulus} (hl : s.cfg.legal = true) (h : s.inputs = st :: rest) :
    step s = issue st (s.withInputs rest) := by
  rw [step, nextStep, if_pos hl, h]

/-- Settles O11: the stimulus is taken, and it selects the instruction and the placements. -/
theorem stepRunsPresentedInstruction : Obligations.StepRunsPresentedInstruction := by
  refine fun s hl => ⟨step_of_nil hl, fun w grant slots rest h hw => ?_, fun code d slots rest i h hdec hwf => ?_⟩
  · rw [step_of_cons hl h, issue, issueWord_of_not_alsoFlush hw, runPlaced]
  · rw [step_of_cons hl h, issue, issueSymbol_of_wf (s := s.withInputs rest) hdec hwf, runPlaced]

/-- Settles O5: a word's operations complete from every state that meets the invariant, and taking the word keeps it. -/
theorem everyPresentedWordCompletes : Obligations.EveryPresentedWordCompletes := by
  refine fun s hs => ⟨step_of_nil hs.legal, fun w grant slots rest h => ?_⟩
  rw [step_of_cons hs.legal h]
  exact issueWord_completes w grant slots ((SameCore.withInputs s rest).inv hs)

/-! ### No placement -/

/-- No operation adds a placement: each point after an Append takes one away (20 R47). -/
theorem exec_slots_nil {i : Instr} {s t : State} (hs : s.Inv) (hslots : s.slots = []) (h : exec i s = .next t) : t.slots = [] := by
  by_cases hi : i = .reset
  · subst hi
    obtain rfl := Host.Outcome.next.inj h
    exact hslots
  · cases hf : s.fatal with
    | true =>
      obtain rfl := Host.Outcome.next.inj ((exec_of_fatal hf hi).symm.trans h)
      exact hslots
    | false =>
      obtain ⟨r, u, hu, hr, -⟩ := exec_ranTo hs hf hi
      obtain rfl := Host.Outcome.next.inj (hu.symm.trans h)
      rw [hr.slots, hslots, List.drop_nil]

theorem settle_exec_of_slots_nil (i : Instr) {s : State} (hs : s.Inv) (hslots : s.slots = []) : settle (exec i s) = exec i s := by
  obtain ⟨t, ht⟩ := exec_completes i hs
  rw [ht, settle_next_of_slots_nil (exec_slots_nil hs hslots ht)]

/-- Settles O12: the step is `settle` of the operation (O11), which has nothing to settle. -/
theorem stepWithoutPlacementIsExec : Obligations.StepWithoutPlacementIsExec := by
  intro s hs
  obtain ⟨-, hword, hsymbol⟩ := stepRunsPresentedInstruction s hs.legal
  have plain (rest : List Stimulus) (i : Instr) :
      settle (exec i ((s.withInputs rest).withSlots [])) = exec i ((s.withInputs rest).withSlots []) :=
    settle_exec_of_slots_nil i (SameCore.inv ⟨rest, [], rfl⟩ hs) rfl
  refine ⟨fun w grant rest h hw => ?_, fun code d rest i h hdec hwf => ?_⟩
  · rw [hword w grant [] rest h hw, ite_self, plain]
  · rw [hsymbol code d [] rest i h hdec hwf, plain]

end Sys2Proof.Machine
end

section
/-! The output pins (30 R73): the transfers of a burst and of the error channel. -/

namespace Sys2Proof.Machine

theorem burstTransfers_map_data (t : Text) : (burstTransfers t).map (fun x => x.data) = t := by
  induction t using burstTransfers.induct with
  | case1 => rfl
  | case2 c => rfl
  | case3 c d t ih => rw [burstTransfers, List.map_cons, ih]

/-- `snk_last` marks the transfer after which no character is left. -/
theorem burstTransfers_last_iff (t : Text) {k : Nat} {x : SinkTransfer} (h : (burstTransfers t)[k]? = some x) :
    x.last = true ↔ k + 1 = t.length := by
  induction t using burstTransfers.induct generalizing k with
  | case1 => simp [burstTransfers] at h
  | case2 c =>
    obtain ⟨rfl, rfl⟩ : k = 0 ∧ ⟨c, true⟩ = x := by simpa [burstTransfers, List.getElem?_singleton] using h
    simp
  | case3 c d t ih =>
    cases k with
    | zero =>
      obtain rfl : ⟨c, false⟩ = x := by simpa [burstTransfers] using h
      simp
    | succ k => simpa using ih h

/-- Settles O57: by the recursion of `burstTransfers`, burst by burst. -/
theorem burstTransfersCarryTheBurst : Obligations.BurstTransfersCarryTheBurst := by
  refine ⟨fun t => ⟨burstTransfers_map_data t, fun _ _ h => burstTransfers_last_iff t h⟩, fun s => ?_⟩
  simp only [State.sinkTransfers, List.map_flatMap, burstTransfers_map_data]
  exact List.flatMap_id

/-- The error channel never carries the codes 0 and 3 (30 R67). -/
theorem warnCodeBits_ne (c : WarnCode) : warnCodeBits c ≠ 0 ∧ warnCodeBits c ≠ 3 := by cases c <;> decide

/-- Every operation completes and adds exactly its warnings to the error channel, `RESET` none (60 R161, R162, 70 R180). -/
theorem exec_err (i : Instr) {s : State} (hs : s.Inv) : ∃ t, exec i s = .next t ∧ t.err = s.err ++ warningsOf i s := by
  by_cases hi : i = .reset
  · subst hi
    exact ⟨_, rfl, by simp [warningsOf]⟩
  · cases hf : s.fatal with
    | true => exact ⟨s, exec_of_fatal hf hi, by simp [warningsOf, hf]⟩
    | false =>
      obtain ⟨-, t, ht, -, herr⟩ := exec_ranTo hs hf hi
      exact ⟨t, ht, herr⟩

/-- Settles O58: a transfer shows its record, and an operation adds its warnings as records. -/
theorem errorChannelTransfersCarryTheRecords : Obligations.ErrorChannelTransfersCarryTheRecords := by
  refine ⟨fun s => ⟨List.length_map _, fun k w h => ?_⟩, fun i s hs => ?_⟩
  · obtain ⟨h0, h3⟩ := warnCodeBits_ne w.code
    exact ⟨warnTransfer w, by rw [State.warnTransfers, List.getElem?_map, h]; rfl, rfl, congrArg warnCodeBits, congrArg warnCodeBits, h0, h3⟩
  · obtain ⟨t, ht, herr⟩ := exec_err i hs
    exact ⟨t, ht, by rw [State.warnTransfers, herr, List.map_append]; rfl⟩

end Sys2Proof.Machine
end

section
/-! The renderings: decimal and hexadecimal numerals (30 R64, R65), the marker texts (30 R63), and the byte that `BYTE v` submits (30 R72). -/

namespace Sys2Proof.Machine

/-! ### Numerals -/

theorem toNat_digitChar {x : Nat} (h : x < 10) : (digitChar x).toNat = 0x30 + x := by
  rw [digitChar, if_pos h, BitVec.toNat_ofNat]
  omega

/-- A numeral has no more digits than the number needs (30 R64). -/
theorem decDigits_length_le (fuel : Nat) {n k : Nat} (hk : 0 < k) (h : n < 10 ^ k) : (decDigits fuel n).length ≤ k := by
  induction fuel generalizing n k with
  | zero => simp [decDigits]
  | succ fuel ih =>
    unfold decDigits
    split
    · exact hk
    · rename_i h10
      obtain ⟨k, rfl⟩ : ∃ j, k = j + 1 := ⟨k - 1, by omega⟩
      have hpos : 0 < k := Nat.pos_of_ne_zero fun h0 => h10 (by simpa [h0] using h)
      have := ih hpos (Nat.div_lt_of_lt_mul (by rwa [pow_succ'] at h))
      simpa using this

theorem decDigits_isDigit (fuel n : Nat) : ∀ c ∈ decDigits fuel n, ∃ x < 10, c = digitChar x := by
  induction fuel generalizing n with
  | zero => simp [decDigits]
  | succ fuel ih =>
    unfold decDigits
    split
    · rename_i h
      simpa using ⟨n, h, rfl⟩
    · simp only [List.forall_mem_append, List.forall_mem_singleton]
      exact ⟨ih _, _, Nat.mod_lt n (by decide), rfl⟩

/-- The value of a numeral, read from its first digit on, as O55 writes it. -/
def numeralValue (t : Text) : Nat := t.foldl (fun acc c => 10 * acc + (c.toNat - 0x30)) 0

theorem numeralValue_decDigits (fuel : Nat) {n : Nat} (h : n < fuel) : numeralValue (decDigits fuel n) = n := by
  induction fuel generalizing n with
  | zero => omega
  | succ fuel ih =>
    unfold decDigits
    split
    · rename_i h10
      simp [numeralValue, toNat_digitChar h10]
    · have hq := ih (n := n / 10) (by omega)
      simp only [numeralValue, List.foldl_append, List.foldl_cons, List.foldl_nil] at hq ⊢
      rw [hq, toNat_digitChar (Nat.mod_lt n (by decide))]
      omega

/-- The numeral of a positive number begins with a positive digit. -/
theorem decDigits_eq_cons (fuel : Nat) {n : Nat} (h : n < fuel) (hn : n ≠ 0) :
    ∃ x t, decDigits fuel n = digitChar x :: t ∧ 0 < x ∧ x < 10 := by
  induction fuel generalizing n with
  | zero => omega
  | succ fuel ih =>
    unfold decDigits
    split
    · rename_i h10
      exact ⟨n, [], rfl, Nat.pos_of_ne_zero hn, h10⟩
    · obtain ⟨x, t, ht, hx⟩ := ih (n := n / 10) (by omega) (by omega)
      exact ⟨x, t ++ [digitChar (n % 10)], by rw [ht, List.cons_append], hx⟩

theorem dec_head?_ne_zero {n : Nat} (hn : n ≠ 0) : (dec n).head? ≠ some 0x30 := by
  obtain ⟨x, t, ht, hpos, hx⟩ := decDigits_eq_cons (n + 1) n.lt_succ_self hn
  rw [dec, ht, List.head?_cons]
  intro h
  have hval := toNat_digitChar hx
  rw [Option.some.inj h] at hval
  change 0x30 = 0x30 + x at hval
  omega

/-- Settles O55: digits, value and first digit each by induction on the digits still to write. -/
theorem decimalRendering : Obligations.DecimalRendering := by
  refine fun n => ⟨numeralValue_decDigits (n + 1) n.lt_succ_self, fun c hc => ?_, dec_head?_ne_zero, rfl⟩
  obtain ⟨x, hx, rfl⟩ := decDigits_isDigit _ _ c hc
  rw [toNat_digitChar hx]
  omega

/-- Settles O54: the two cases of a digit are told apart at ten. -/
theorem hexRendering : Obligations.HexRendering := by
  intro v
  simp only [hex2, digitChar, Nat.lt_succ_iff]

/-! ### The default texts -/

theorem dec_length_le (v : Byte) : (dec v.toNat).length ≤ 3 :=
  decDigits_length_le _ (by decide) (v.isLt.trans (by decide))

/-- The longest default text is the frame marker of ten characters (30 R63). -/
theorem calibrated_fragmentText_length_le (v : Verbosity) (σ : Strictness) (n : Nat) (f : Fragment) :
    (fragmentText { Cfg.calibrated v σ with cap := n } f).length ≤ 10 := by
  cases f with
  | frame i =>
    have := dec_length_le i
    simp only [fragmentText, Cfg.calibrated, ascii, List.length_append, List.length_map, List.length_cons, List.length_nil]
    omega
  | msg | conf | bit | byteSep | hex | frameDone | seqDone => simp [fragmentText, Cfg.calibrated, ascii, hex2]

/-- Settles O43: the capacity changes no text, and no default text is longer than ten characters. -/
theorem defaultTextsFitTenCharacters : Obligations.DefaultTextsFitTenCharacters :=
  fun v σ n f hn => decide_eq_true ((calibrated_fragmentText_length_le v σ n f).trans hn)

/-! ### The pseudo-operation BYTE -/

/-- One turn of the loop of 43 R131 puts the bit below those before it. -/
theorem shiftIn_eq_shiftConcat (v : Byte) (b : Bool) : shiftIn v b = v.shiftConcat b := by
  apply BitVec.eq_of_toNat_eq
  cases b <;> simp [shiftIn, BitVec.toNat_shiftConcat]

/-- Shifting in the bits of a byte, the most significant first, gives the byte. -/
theorem foldl_shiftIn_byteBits (v : Byte) : (byteBits v).reverse.foldl shiftIn 0 = v := by
  apply BitVec.eq_of_getLsbD_eq
  intro i hi
  interval_cases i <;> simp [byteBits, shiftIn_eq_shiftConcat, BitVec.getElem_shiftConcat]

/-- Settles O53: under either order the assembler meets the bits of `v` with the most significant first. -/
theorem bytePseudoOperationAssemblesItsByte : Obligations.BytePseudoOperationAssemblesItsByte := by
  intro o v bits h
  cases o with
  | lastIsMsb => rw [assemble, h, submissionOrder, foldl_shiftIn_byteBits]
  | firstIsMsb => rw [assemble, h, submissionOrder, foldl_shiftIn_byteBits]

end Sys2Proof.Machine
end

section
/-! The duration of a pulse (40 R82, R83). -/

namespace Sys2Proof.Machine

/-- Both branches of 40 R82 are one subtraction modulo `2^32`, since `MAX + 1 = 0` there. -/
theorem duration_eq_sub (p c : Ts) : duration p c = c - p := by
  unfold duration
  split
  · have hmax : BitVec.allOnes 32 + 1 = 0 := by decide
    calc BitVec.allOnes 32 - p + 1 + c = BitVec.allOnes 32 + 1 + (c - p) := by ring
      _ = c - p := by rw [hmax, zero_add]
  · rfl

/-- A pulse during which the counter wrapped (40 R82, first branch): the sum is below `2^32`. -/
theorem toNat_duration_of_lt {p c : Ts} (h : c < p) : (duration p c).toNat = (2 ^ 32 - 1 - p.toNat + 1) + c.toNat := by
  rw [duration_eq_sub]
  bv_omega

theorem toNat_duration_of_not_lt {p c : Ts} (h : ¬c < p) : (duration p c).toNat = c.toNat - p.toNat := by
  rw [duration_eq_sub, BitVec.toNat_sub_of_le (BitVec.not_lt.mp h)]

/-- A pulse of `e` ticks is measured as `e` modulo `2^32`: whole turns of the counter are lost (40 R83 (c), (d)). -/
theorem toNat_duration_elapsed (p : Ts) (e : Nat) : (duration p (p + BitVec.ofNat 32 e)).toNat = e % 2 ^ 32 := by
  rw [duration_eq_sub, add_sub_cancel_left, BitVec.toNat_ofNat]

/-- Settles O48: each branch over the integers, and the one subtraction both are. -/
theorem durationIsTheModularDifference : Obligations.DurationIsTheModularDifference :=
  fun p c => ⟨toNat_duration_of_lt, toNat_duration_of_not_lt, duration_eq_sub p c⟩

/-- Settles O49: in the wrapping branch `prev` is above `cur`, which bounds the intermediates; the laws are those of subtraction modulo `2^32`. -/
theorem durationLaws : Obligations.DurationLaws := by
  refine ⟨fun p c => ⟨Nat.le_pred_of_lt (duration p c).isLt, fun h => ?_⟩, fun p => ?_, fun p e he => ?_, fun p e _ => ?_, fun p c x => ?_⟩
  · have hlt : c.toNat < p.toNat := h
    omega
  · rw [duration_eq_sub, sub_self]
  · rw [toNat_duration_elapsed, Nat.mod_eq_of_lt he]
  · exact toNat_duration_elapsed p e
  · rw [duration_eq_sub, duration_eq_sub, add_sub_add_right_eq_sub]

end Sys2Proof.Machine
end

section
/-! The two edge operations (40 R80, R81, R84 to R86). -/

namespace Sys2Proof.Machine

theorem exec_edgeRise_of_live (ts : Ts) {s : State} (hf : s.fatal = false) : exec (.edgeRise ts) s = .next (s.withRiseTs ts) := by
  rw [exec_edgeRise, unlessFatal_of_live hf, Flow.outcome_done]

/-- The guard hands the procedure no state but `s`. -/
theorem unlessFatal_congr {s : State} {f g : State → Flow} (h : f s = g s) : unlessFatal s f = unlessFatal s g := by
  rw [unlessFatal, unlessFatal, h]

/-- The row a symbol selects under the straps of the state is `Handle` of the symbol (42 R100). -/
theorem exec_symInstr (y : Symbol) (d : Ts) (s : State) : exec (symInstr s.cfg.strictness y d) s = unlessFatal s (handle y d) := by
  cases y with
  | frameConf =>
    by_cases hσ : s.cfg.strictness = .permissive
    · rw [symInstr, if_pos hσ]
      exact unlessFatal_congr (if_pos hσ).symm
    · rw [symInstr, if_neg hσ]
      exact unlessFatal_congr (if_neg hσ).symm
  | msgStart | frameStart | bit0 | bit1 | invalid => rfl

/-- `EDGE_FALL` is the row of the symbol its duration classifies as (40 R81, 42 R100). -/
theorem exec_edgeFall_eq_exec_symInstr (ts : Ts) (s : State) : exec (.edgeFall ts) s =
    exec (symInstr s.cfg.strictness (classify s.cfg (duration s.riseTs ts)) (duration s.riseTs ts)) s := by
  rw [exec_edgeFall, exec_symInstr]

/-- No handler writes `rise_ts` or what is pending (10 R11). -/
theorem handle_kept {y : Symbol} {d : Ts} {s t : State} (hs : s.Inv) (hf : s.fatal = false) (h : (handle y d s).outcome = .next t) :
    Kept s t := by
  have hb := hs.bufInv
  have bit (b : Bool) (h : (submitBit b s).outcome = .next t) : Kept s t :=
    ((submitBit_ran b hs.legal hb hf (hs.bitCountLive hf)).next h).2.kept
  cases y with
  | msgStart => exact ((handleMsgStart_ran hb hf).next h).2.kept
  | frameConf =>
    by_cases hσ : s.cfg.strictness = .permissive
    · rw [handle, if_pos hσ] at h
      obtain rfl := Host.Outcome.next.inj h
      exact ⟨rfl, rfl⟩
    · rw [handle, if_neg hσ] at h
      exact ((handleFrameConfS_ran hb hf).next h).2.kept
  | frameStart => exact ((handleFrameStart_ran hb hf).next h).2.kept
  | bit0 => exact bit false h
  | bit1 => exact bit true h
  | invalid => exact ((handleInvalid_ran d hb hf).next h).2.kept

/-- Settles O18: the run of the handler says what is shown and warned of, and the handler leaves `rise_ts` and what is pending. -/
theorem edgeFallCompletes : Obligations.EdgeFallCompletes := by
  intro ts s hs hf
  obtain ⟨t, ht, hr, herr⟩ := (handle_ran (classify s.cfg (duration s.riseTs ts)) (duration s.riseTs ts) hs hf).outcome
  have hk := handle_kept hs hf ht
  have hexec : exec (.edgeFall ts) s = .next t := by rw [exec_edgeFall, unlessFatal_of_live hf, ht]
  exact ⟨t, hexec, hk.riseTs, hr.cfg, hk.inputs, herr, hr.appended⟩

/-- Settles O23: the later rising edge overwrites the earlier one's timestamp, and a falling edge leaves `rise_ts` for the next one. -/
theorem repeatedEdgesUseTheLastRise : Obligations.RepeatedEdgesUseTheLastRise := by
  refine fun a b s t hs hf => ⟨fun h => ?_, fun h _ => ?_⟩
  · obtain rfl : s.withRiseTs a = t := Host.Outcome.next.inj ((exec_edgeRise_of_live a hf).symm.trans h)
    have hf' : (s.withRiseTs a).fatal = false := hf
    rw [exec_edgeRise_of_live b hf', exec_edgeRise_of_live b hf]
    rfl
  · have hk : Kept s t := handle_kept hs hf (outcome_of_unlessFatal hf (exec_edgeFall a s ▸ h))
    rw [exec_edgeFall_eq_exec_symInstr, hk.riseTs]

/-- Settles O16: a live core records the timestamp, a halted one nothing. -/
theorem edgeRiseResult : Obligations.EdgeRiseResult :=
  fun ts _ => ⟨exec_edgeRise_of_live ts, fun hf => exec_of_fatal hf nofun⟩

/-- Settles O21: every operation but `RESET` begins with the test of `fatal`. -/
theorem fatalStopsEverythingButReset : Obligations.FatalStopsEverythingButReset :=
  fun _ _ hf hi => exec_of_fatal hf hi

/-- Settles O22: `RESET` leaves `rise_ts == 0`, and a duration measured from 0 is the timestamp itself. -/
theorem firstFallIsMeasuredAgainstZero : Obligations.FirstFallIsMeasuredAgainstZero := by
  intro c presented ts
  have hd : duration ((State.resetWith c).withInputs presented).riseTs ts = ts := (duration_eq_sub 0 ts).trans (BitVec.sub_zero ts)
  rw [exec_edgeFall_eq_exec_symInstr, hd]
  rfl

end Sys2Proof.Machine
end

section
/-! The Pulse Classifier (41 R90 to R99). -/

namespace Sys2Proof

/-- The strict unsigned comparison of 41 R90, over the integers. -/
theorem Window.contains_iff (w : Window) (d : Ts) : w.contains d = true ↔ w.lo.toNat < d.toNat ∧ d.toNat < w.hi.toNat := by
  rw [Window.contains, Bool.and_eq_true, decide_eq_true_iff, decide_eq_true_iff, BitVec.lt_def, BitVec.lt_def]

/-- Settles O50: one case per branch of the chain, which hands on that every earlier window failed. -/
theorem classifierReturnsFirstMatch : Obligations.ClassifierReturnsFirstMatch := by
  intro c d
  simp only [← Window.contains_iff, classify]
  split_ifs <;> simp [*]

/-- `BIT1` is tested after `FRAME_CONF`, so a `BIT1` window inside that of `FRAME_CONF` is never reached (41 R99 (b)). -/
theorem classify_ne_bit1_of_window_le {c : Cfg} (hlo : c.fc.lo ≤ c.b1.lo) (hhi : c.b1.hi ≤ c.fc.hi) (d : Ts) : classify c d ≠ .bit1 := by
  intro h
  obtain ⟨-, -, -, -, hbit1, -⟩ := classifierReturnsFirstMatch c d
  obtain ⟨-, hfc, -, -, hb1lo, hb1hi⟩ := hbit1.mp h
  exact hfc ⟨hlo.trans_lt hb1lo, hb1hi.trans_le hhi⟩

/-- Settles O51: the first-match law (O50) at the bounds of each preset (41 R98), where the gaps are what the five windows leave. -/
theorem presetsClassifyTheirRanges : Obligations.PresetsClassifyTheirRanges := by
  intro v σ d
  obtain ⟨cms, cfc, cfs, cb0, cb1, cinv⟩ := classifierReturnsFirstMatch (Cfg.calibrated v σ) d
  obtain ⟨ams, afc, afs, ab0, -, ainv⟩ := classifierReturnsFirstMatch (Cfg.alternate v σ) d
  have hbit1 : classify (Cfg.alternate v σ) d ≠ .bit1 :=
    classify_ne_bit1_of_window_le (show 1150#32 ≤ 1150#32 by decide) (show 1300#32 ≤ 1700#32 by decide) d
  refine ⟨cms.trans ?_, cfc.trans ?_, cfs.trans ?_, cb0.trans ?_, cb1.trans ?_,
    ams.trans ?_, afc.trans ?_, afs.trans ?_, ab0.trans ?_, hbit1, cinv.trans ?_, ainv.trans ?_⟩
  all_goals
    simp only [Cfg.alternate, Cfg.calibrated, BitVec.reduceToNat]
    omega

end Sys2Proof
end

section
/-! The two confirmation rows, the empty word and the boundaries that begin a message or a frame (42 R101 to R104, R113). -/

namespace Sys2Proof.Machine

/-- The next state of a live core is the one the run of its procedure speaks of. -/
theorem Ran.unlessFatal_eq_next {e : Bool} {fs : List Fragment} {s : State} {f : State → Flow} {post : State → Prop}
    (h : Ran e fs s (f s) post) (hf : s.fatal = false) : ∃ t, unlessFatal s f = .next t ∧ RanTo e fs s (f s) t ∧ post t := by
  rw [unlessFatal_of_live hf]
  exact h.outcome

/-- Settles O24: the registers at the end of `MSG_START`, its fragment and its warning are its `Ran` law. -/
theorem msgStartResult : Obligations.MsgStartResult := by
  intro s hs hf
  obtain ⟨t, ht, hr, hp⟩ := (handleMsgStart_ran hs.bufInv hf).unlessFatal_eq_next hf
  exact ⟨t, ht, hp.phase, hp.frameIndex, hp.framePos, hp.bitCount, hp.err, hr.appended, hp.kept.riseTs, hp.bits, hr.cfg, hp.kept.inputs⟩

/-- Outside a message a strict confirmation leaves the buffer alone (42 R103). -/
theorem handleFrameConfS_sameBuf {s t : State} (hi : s.phase = .idle) (h : (handleFrameConfS s).outcome = .next t) : SameBuf s t := by
  rw [handleFrameConfS_of_idle hi] at h
  obtain rfl := Host.Outcome.next.inj h
  exact ⟨rfl, rfl, rfl, rfl, rfl, rfl⟩

/-- Settles O25: the registers and the fragment are the `Ran` law of the handler, the untouched buffer is its branch from IDLE. -/
theorem strictConfirmationResult : Obligations.StrictConfirmationResult := by
  intro s hs hf
  obtain ⟨t, ht, hr, hp⟩ := (handleFrameConfS_ran hs.bufInv hf).unlessFatal_eq_next hf
  refine ⟨t, ht, hp.phase, hp.frameIndex, hp.framePos, hp.bitCount, hp.err, hr.appended, fun hi => ?_, hp.kept.riseTs, hp.bits, hr.cfg,
    hp.kept.inputs⟩
  have hk := handleFrameConfS_sameBuf hi (outcome_of_unlessFatal hf ht)
  exact ⟨hk.mem, hk.len, hk.sink⟩

/-- Settles O26: the registers at the end of `FRAME_START`, its label and its warning are its `Ran` law. -/
theorem frameStartResult : Obligations.FrameStartResult := by
  intro s hs hf
  obtain ⟨t, ht, hr, hp⟩ := (handleFrameStart_ran hs.bufInv hf).unlessFatal_eq_next hf
  exact ⟨t, ht, hp.frameIndex, hp.framePos, hp.bitCount, hp.phase, hp.err, hr.appended, hp.kept.riseTs, hp.bits, hr.cfg, hp.kept.inputs⟩

/-- Settles O20: a permissive confirmation is the empty procedure behind the test of `fatal`, and the empty word has no procedure. -/
theorem permissiveConfirmationAndNopChangeNothing : Obligations.PermissiveConfirmationAndNopChangeNothing := by
  refine fun s => ⟨?_, rfl⟩
  cases hf : s.fatal with
  | true => exact exec_of_fatal hf nofun
  | false => exact unlessFatal_of_live hf handleFrameConfP

/-- Settles O56: the two branches of `satinc`; below 255 the sum does not wrap. -/
theorem saturatingIncrement : Obligations.SaturatingIncrement := by
  refine fun v => ⟨fun h => ?_, fun h => ?_⟩
  · rw [satinc, if_pos h]
    exact BitVec.toNat_add_of_lt (by simpa using Nat.add_lt_of_lt_sub h)
  · rw [satinc, if_neg (by omega)]

end Sys2Proof.Machine
end

section
/-! A symbol as a row of its own: `INVALID`, a bit inside a byte, and the phase after each symbol (42 R100, R105 to R107, R112). -/

namespace Sys2Proof.Machine

/-- Settles O17: both sides are `Handle` of the symbol. -/
theorem edgeFallRunsTheHandlerOfItsSymbol : Obligations.EdgeFallRunsTheHandlerOfItsSymbol := exec_edgeFall_eq_exec_symInstr

/-! ### INVALID -/

/-- The warning, if the phase asks for one, then the full reset (42 R107). -/
theorem handleInvalid_eq (d : Ts) (s : State) :
    handleInvalid d s = .done (fullReset (s.withErr (s.err ++ if s.phase = .inMsg then [⟨.decode, d⟩] else []))) := by
  unfold handleInvalid
  split
  · rfl
  · rw [List.append_nil]
    rfl

theorem exec_invalid_of_live (d : Ts) {s : State} (hf : s.fatal = false) : exec (.invalid d) s =
    .next (fullReset (s.withErr (s.err ++ if s.phase = .inMsg then [⟨.decode, d⟩] else []))) := by
  rw [exec, execInvalid, unlessFatal_of_live hf, handleInvalid_eq, Flow.outcome_done]

/-- In IDLE the error channel is left alone (42 R107). -/
theorem exec_invalid_of_idle (d : Ts) {s : State} (hf : s.fatal = false) (hi : s.phase = .idle) :
    exec (.invalid d) s = .next (fullReset s) := by
  rw [exec_invalid_of_live d hf, hi, if_neg (by decide), List.append_nil]
  rfl

/-- Settles O27: the warning and the full reset, written as one record. -/
theorem invalidResult : Obligations.InvalidResult := fun d _ hf => exec_invalid_of_live d hf

/-- Settles O32: the first `INVALID` leaves the phase IDLE, so the second raises no warning and its full reset finds everything reset. -/
theorem invalidIsIdempotent : Obligations.InvalidIsIdempotent := by
  intro d e s t hf h
  obtain rfl := Host.Outcome.next.inj ((exec_invalid_of_live d hf).symm.trans h)
  exact exec_invalid_of_idle e hf rfl

/-! ### A bit inside a byte -/

/-- The row of the opcode table that submits the bit `b`. -/
def bitInstr (b : Bool) : Instr := if b then .bit1 else .bit0

theorem eq_bitInstr {i : Instr} {b : Bool} (h : (i = .bit0 ∧ b = false) ∨ (i = .bit1 ∧ b = true)) : i = bitInstr b := by
  rcases h with ⟨rfl, rfl⟩ | ⟨rfl, rfl⟩ <;> rfl

theorem exec_bitInstr (b : Bool) (s : State) : exec (bitInstr b) s = unlessFatal s (submitBit b) := by
  cases b <;> rfl

/-- A bit that completes no byte hands over its own character in Trace mode, nothing in Compact mode (43 R130, R132, R133). -/
theorem bitFragments_inside (b : Bool) {s : State} (h : s.bitCount ≠ 7) :
    bitFragments b s = if s.cfg.verbosity = .trace then [.bit b] else [] := by
  rw [bitFragments, if_neg h, List.append_nil]
  cases s.cfg.verbosity <;> rfl

/-- While the fragments fit beside what waits and no FLUSH is placed, they only wait (44 R140). -/
theorem RanTo.len_sink_of_room {fs : List Fragment} {s t : State} {r : Flow} (h : RanTo false fs s r t) (hslots : s.slots = [])
    (hroom : s.len + (fs.map (fragmentText s.cfg)).flatten.length ≤ s.cfg.cap) :
    t.len = s.len + (fs.map (fragmentText s.cfg)).flatten.length ∧ t.sink = s.sink := by
  have hout := h.output
  rw [Output.finish_false, hslots, Output.run_of_fits _ _ _ (by simpa using hroom)] at hout
  simpa using len_sink_of_output hout

/-- Settles O28: the registers and the fragment are the `Ran` law of the bit; Compact mode leaves the whole buffer, and in Trace mode the
one character waits when there is room for it. -/
theorem bitInsideByteResult : Obligations.BitInsideByteResult := by
  intro i b s hi hs hf h7
  obtain rfl := eq_bitInstr hi
  rw [exec_bitInstr]
  obtain ⟨t, ht, hr, hp⟩ := (submitBit_ran b hs.legal hs.bufInv hf (hs.bitCountLive hf)).unlessFatal_eq_next hf
  obtain ⟨hlive, hphase, hindex, hpos, hcount⟩ := hp.onMid h7
  rw [bitFragments_inside b h7, decide_eq_false fun he : endsSequence s => h7 he.1] at hr
  refine ⟨t, ht, hp.bits, hcount, hr.appended, hlive, fun hv => ?_, fun hv hslots hroom => ?_, hphase, hindex, hpos, hp.kept.riseTs, hp.err,
    hr.cfg, hp.kept.inputs⟩
  · have hk := submitBit_sameBuf (by simp [hv]) h7 (outcome_of_unlessFatal hf ht)
    exact ⟨hk.mem, hk.len, hk.sink, hk.slots⟩
  · rw [if_pos hv] at hr
    exact hr.len_sink_of_room hslots hroom

/-! ### The transition table -/

/-- A bit that does not halt the core moves the phase only where it ends the sequence (42 R109, R112). -/
theorem BitPost.phase_of_live {b : Bool} {s t : State} (hp : BitPost b s t) (ht : t.fatal = false) :
    t.phase = if decide (endsSequence s) then .idle else s.phase := by
  by_cases he : endsSequence s
  · rw [if_pos (decide_eq_true he)]
    exact (hp.onSeq he.1 ht he.2).1
  · rw [if_neg (by simpa using he)]
    exact (hp.phase_frameIndex_eq he).1

/-- Settles O31: the row of the symbol is its handler, and the phase it leaves is in the handler's `Ran` law. -/
theorem phaseFollowsTransitionTable : Obligations.PhaseFollowsTransitionTable := by
  intro y d s t hs hf h ht
  have hb := hs.bufInv
  rw [exec_symInstr] at h
  replace h := outcome_of_unlessFatal hf h
  have bit (b : Bool) (h : (submitBit b s).outcome = .next t) : t.phase = if decide (endsSequence s) then .idle else s.phase :=
    ((submitBit_ran b hs.legal hb hf (hs.bitCountLive hf)).next h).2.phase_of_live ht
  cases y with
  | msgStart => exact ((handleMsgStart_ran hb hf).next h).2.phase
  | frameConf =>
    by_cases hσ : s.cfg.strictness = .permissive
    · rw [handle, if_pos hσ] at h
      obtain ⟨-, rfl⟩ := (handleFrameConfP_ran hb hf).next h
      rw [tablePhase, if_pos hσ]
    · rw [handle, if_neg hσ] at h
      rw [tablePhase, if_neg hσ]
      exact ((handleFrameConfS_ran hb hf).next h).2.phase
  | frameStart => exact ((handleFrameStart_ran hb hf).next h).2.phase
  | bit0 => exact bit false h
  | bit1 => exact bit true h
  | invalid => exact ((handleInvalid_ran d hb hf).next h).2.phase

end Sys2Proof.Machine
end

section
/-! The Byte Assembler: which cell is which bit of the byte, and the bit that completes it (42 R109; 43 R130 to R134; 60 R163). -/

namespace Sys2Proof.Machine

/-! ### The assembled byte -/

/-- The loop of 43 R131 shifts its last cell into bit 0 and moves those before it one bit up. -/
theorem getLsbD_foldl_shiftIn_reverse (cells : List Bool) (v : Byte) {i : Nat} (h8 : i < 8) (h : i < cells.length) :
    (cells.reverse.foldl shiftIn v).getLsbD i = cells[i] := by
  induction cells generalizing i with
  | nil => exact absurd h (Nat.not_lt_zero i)
  | cons b cells ih =>
    rw [List.reverse_cons, List.foldl_concat, shiftIn_eq_shiftConcat, BitVec.getLsbD_shiftConcat, decide_eq_true h8, Bool.true_and]
    cases i with
    | zero => rfl
    | succ i => exact ih (by omega) (Nat.lt_of_succ_lt_succ h)

/-- Settles O52: FIRST_IS_MSB is the loop over the cells reversed, so bit `i` is cell `7 - i` where it is cell `i` under LAST_IS_MSB. -/
theorem assembledByteBits : Obligations.AssembledByteBits := by
  intro bits i h
  constructor
  · rw [assemble, getLsbD_foldl_shiftIn_reverse _ _ h (by simpa using h), Vector.getElem_toList]
  · rw [assemble, ← List.reverse_reverse bits.toList, getLsbD_foldl_shiftIn_reverse _ _ h (by simpa using h)]
    simp

/-! ### The bit that completes a byte -/

/-- The row of a bit on a live core, with its fragments and the registers at its end (42 R105, R106). -/
theorem exec_bitInstr_ran (b : Bool) {s : State} (hs : s.Inv) (hf : s.fatal = false) : ∃ t, exec (bitInstr b) s = .next t ∧
    RanTo (decide (endsSequence s)) (bitFragments b s) s (submitBit b s) t ∧ BitPost b s t := by
  rw [exec_bitInstr]
  exact (submitBit_ran b hs.legal hs.bufInv hf (hs.bitCountLive hf)).unlessFatal_eq_next hf

/-- The fragments of a completed byte: its rendering by verbosity and bit order, then the policy's markers (43 R132, R133; 42 R109). -/
theorem bitFragments_completing (b : Bool) {s : State} (h7 : s.bitCount = 7) : bitFragments b s =
    (if s.cfg.verbosity = .trace then [.bit b, .byteSep] else [.hex (assemble s.cfg.bitOrder (s.bits.set 7 b))]) ++
      completionFragments s := by
  rw [bitFragments, if_pos h7, byteFragment, State.withBits_cfg, State.withBits_bits]
  cases s.cfg.verbosity <;> rfl

/-- The eighth bit goes to cell 7 (43 R130). -/
theorem BitPost.bits_completing {b : Bool} {s t : State} (hp : BitPost b s t) (h7 : s.bitCount = 7) : t.bits = s.bits.set 7 b := by
  simpa [h7] using hp.bits (by simp [h7])

/-- The registers after a completed byte: the full reset after the last byte of the sequence, else only the position counted (42 R109). -/
theorem BitPost.regs_completing {b : Bool} {s t : State} (hp : BitPost b s t) (h7 : s.bitCount = 7) (ht : t.fatal = false) :
    t.bitCount = 0 ∧ if seqCompletes s then t.phase = .idle ∧ t.frameIndex = 0 ∧ t.framePos = 0 ∧ t.len = 0
      else t.phase = s.phase ∧ t.frameIndex = s.frameIndex ∧ t.framePos = satinc s.framePos := by
  by_cases hq : seqCompletes s
  · obtain ⟨hphase, hindex, hpos, hcount, hlen⟩ := hp.onSeq h7 ht hq
    rw [if_pos hq]
    exact ⟨hcount, hphase, hindex, hpos, hlen⟩
  · obtain ⟨hphase, hindex, hpos, hcount⟩ := hp.onByte h7 ht hq
    rw [if_neg hq]
    exact ⟨hcount, hphase, hindex, hpos⟩

/-- Settles O29: no fragment is oversized, so the core is live at the end and the bit's `Ran` law gives its fragments and registers. -/
theorem bitCompletingByteResult : Obligations.BitCompletingByteResult := by
  intro i b s hi hs hf h7 hfit
  obtain rfl := eq_bitInstr hi
  obtain ⟨t, ht, hr, hp⟩ := exec_bitInstr_ran b hs hf
  have hlive : t.fatal = false := by rw [hr.appended.fatal, hfit, Bool.not_true]
  obtain ⟨hcount, hregs⟩ := hp.regs_completing h7 hlive
  exact ⟨t, ht, hp.bits_completing h7, hcount, hregs, bitFragments_completing b h7 ▸ hr.appended, hp.kept.riseTs, hp.err, hr.cfg,
    hp.kept.inputs⟩

/-- Settles O30: the oversized fragment halts the core, and the bit's `Ran` law gives the registers it was abandoned with. -/
theorem fatalInsideByteCompletionFreezes : Obligations.FatalInsideByteCompletionFreezes := by
  intro i b s hi hs hf h7 hover
  obtain rfl := eq_bitInstr hi
  obtain ⟨t, ht, hr, hp⟩ := exec_bitInstr_ran b hs hf
  have hfatal : t.fatal = true := by rw [hr.appended.fatal, hover, Bool.not_false]
  obtain ⟨hphase, hindex, hcount, hpos⟩ := hp.onFatal h7 hfatal
  exact ⟨t, ht, hfatal, hr.fatalEmpty hfatal, hp.bits_completing h7, hcount, hphase, hindex, hpos, hr.appended, hp.kept.riseTs, hp.err,
    hr.cfg, hp.kept.inputs⟩

end Sys2Proof.Machine
end

section
/-! The output buffer: `Append` case by case, `FLUSH`, the oversized fragment, the fragments a configuration can produce, and the FLUSH steps
placed inside an operation (44 R140 to R148). -/

namespace Sys2Proof.Machine

/-! ### Flush and Append as records -/

theorem flushed_of_len_eq_zero {s : State} (h : s.len = 0) : s.flushed = s := by
  rw [State.flushed, if_neg (by omega)]

theorem flushed_of_len_ne_zero {s : State} (h : s.len ≠ 0) :
    s.flushed = { s with sink := s.sink ++ [s.mem.readSpan 0 s.len], len := 0 } := by
  rw [State.flushed, if_pos (Nat.pos_of_ne_zero h)]
  rfl

/-- An empty buffer is flushed by adding no burst and leaving the cursor at 0, so one record covers both cases of 44 R141. -/
theorem flushed_eq (s : State) :
    s.flushed = { s with sink := s.sink ++ (if s.len = 0 then [] else [s.mem.readSpan 0 s.len]), len := 0 } := by
  by_cases h : s.len = 0
  · rw [flushed_of_len_eq_zero h, if_pos h, List.append_nil]
    exact congrArg s.withLen h
  · rw [flushed_of_len_ne_zero h, if_neg h]

/-- After a flush `Append` writes at 0 (44 R140). -/
theorem written_flushed (s : State) (t : Text) :
    s.flushed.written t = (s.flushed.withMem (s.mem.writeSpan 0 t)).withLen t.length := by
  rw [State.written, flushed_len, flushed_mem, Nat.zero_add]

/-- The result of `FLUSH`, which never faults: a halted core as it is, a live one flushed (44 R142). -/
theorem exec_flush {s : State} (hs : s.Inv) : exec .flush s = .next (if s.fatal then s else s.flushed) := by
  obtain ⟨t, ht⟩ := exec_completes .flush hs
  rw [ht, execFlush_next hs ht]

/-- Settles O19: a halted core and an empty buffer are left alone, otherwise the flush is the record. -/
theorem flushResult : Obligations.FlushResult := by
  intro s hs
  rw [exec_flush hs]
  cases hf : s.fatal with
  | true => simp
  | false =>
    by_cases h : s.len = 0
    · simp [h, flushed_of_len_eq_zero]
    · simp [h, hf, flushed_of_len_ne_zero]

/-- Settles O33: the three cases of `append_cases` exclude each other, and the flushed and written states are the records. -/
theorem appendResult : Obligations.AppendResult := by
  intro t s hs
  rcases append_cases t hs.lenMax with ⟨hroom, h⟩ | ⟨hfull, hfit, h⟩ | ⟨hover, h⟩
  · exact ⟨fun _ => h, fun _ => by omega, fun _ => by omega⟩
  · refine ⟨fun _ => by omega, fun _ _ => ?_, fun _ => by omega⟩
    rw [h, written_flushed, flushed_eq]
    rfl
  · refine ⟨fun _ => by omega, fun _ _ => by omega, fun _ => ?_⟩
    rw [h, flushed_eq]
    rfl

/-- Settles O34: the empty text always fits, and writing it moves neither a cell nor the cursor. -/
theorem appendOfEmptyTextDoesNothing : Obligations.AppendOfEmptyTextDoesNothing :=
  fun s hs => (appendResult [] s hs).1 hs.lenMax

/-! ### The oversized fragment -/

/-- With the buffer empty everything shown is in the sink (20 R48). -/
theorem shown_of_len_eq_zero {s : State} (h : s.len = 0) : s.shown = s.sink.flatten := by
  rw [State.shown, State.bufText, h, Memory.readSpan, List.append_nil]

/-- Settles O41: the run of the operation ends halted with the buffer empty, so the text it shows is all in the sink. -/
theorem oversizedFragmentHaltsTheCore : Obligations.OversizedFragmentHaltsTheCore := by
  intro i s hs hf hi hover
  obtain ⟨r, t, ht, hr, -⟩ := exec_ranTo hs hf hi
  have hfatal : t.fatal = true := by rw [hr.appended.fatal, hover, Bool.not_false]
  have hlen := hr.fatalEmpty hfatal
  exact ⟨t, ht, hfatal, hlen, by rw [← shown_of_len_eq_zero hlen, hr.appended.text]; rfl⟩

/-! ### The fragments a configuration can produce -/

theorem satinc_ne_zero (v : BitVec 8) : satinc v ≠ 0 := by
  unfold satinc
  split <;> bv_omega

/-- A byte is rendered as the verbosity says (43 R132, R133). -/
theorem producible_byteFragment (s : State) : producible s.cfg (byteFragment s) = true := by
  unfold byteFragment
  split <;> rename_i hv <;> exact decide_eq_true hv

/-- The policy's markers can be produced under every configuration (42 R109). -/
theorem producible_completionFragments (s : State) : ∀ f ∈ completionFragments s, producible s.cfg f = true := by
  unfold completionFragments
  split
  · simp [producible]
  · split <;> simp [producible]

theorem producible_bitFragments (b : Bool) (s : State) : ∀ f ∈ bitFragments b s, producible s.cfg f = true := by
  have hbyte := producible_byteFragment (s.withBits (s.bits.set 7 b))
  have hmarkers := producible_completionFragments s
  unfold bitFragments
  refine List.forall_mem_append.mpr ⟨?_, ?_⟩
  · split
    · simp
    · rename_i hv
      simpa [producible] using hv
  · split
    · exact List.forall_mem_cons.mpr ⟨hbyte, hmarkers⟩
    · simp

theorem producible_conf {c : Cfg} (h : c.strictness ≠ .permissive) : producible c .conf = true := by
  cases hσ : c.strictness with
  | permissive => exact absurd hσ h
  | strict => exact decide_eq_true hσ

/-- Each symbol's handler hands over what its configuration can produce (42 R101 to R107). -/
theorem producible_symbolFragments (y : Symbol) (s : State) : ∀ f ∈ symbolFragments y s, producible s.cfg f = true := by
  cases y with
  | msgStart => simp [symbolFragments, producible]
  | frameConf =>
    dsimp only [symbolFragments]
    split
    · simp
    · rename_i h
      exact List.forall_mem_singleton.mpr (producible_conf fun hσ => h (.inl hσ))
  | frameStart => exact List.forall_mem_singleton.mpr (decide_eq_true (satinc_ne_zero s.frameIndex))
  | bit0 => exact producible_bitFragments false s
  | bit1 => exact producible_bitFragments true s
  | invalid => simp [symbolFragments]

theorem producible_fragmentsOf {i : Instr} {s : State} (hi : i.wf s.cfg = true) : ∀ f ∈ fragmentsOf i s, producible s.cfg f = true := by
  unfold fragmentsOf
  split
  · simp
  · cases i with
    | reset | edgeRise | flush | nop | frameConfP | invalid => simp
    | edgeFall ts => exact producible_symbolFragments _ s
    | frameConfS =>
      have hconf := producible_conf (c := s.cfg) (by simp [of_decide_eq_true hi])
      dsimp only
      split
      · simp
      · simpa using hconf
    | msgStart => exact producible_symbolFragments .msgStart s
    | frameStart => exact producible_symbolFragments .frameStart s
    | bit0 => exact producible_bitFragments false s
    | bit1 => exact producible_bitFragments true s

/-- Only an oversized fragment halts a live core (44 R143). -/
theorem exec_live_of_fits {i : Instr} {s t : State} (hs : s.Inv) (hf : s.fatal = false) (hfit : ∀ f ∈ fragmentsOf i s, fits s.cfg f = true)
    (h : exec i s = .next t) : t.fatal = false := by
  by_cases hi : i = .reset
  · subst hi
    obtain rfl := Host.Outcome.next.inj h
    rfl
  · obtain ⟨r, u, hu, hr, -⟩ := exec_ranTo hs hf hi
    obtain rfl := Host.Outcome.next.inj (hu.symm.trans h)
    rw [hr.appended.fatal, List.all_eq_true.mpr hfit, Bool.not_true]

/-- Settles O42: a step performs one well-formed operation, whose fragments the configuration can produce, so none is oversized. -/
theorem fatalNeverSetWhenFragmentsFit : Obligations.FatalNeverSetWhenFragmentsFit := by
  refine ⟨fun s t hs hfits hf h => ?_, fun i s f hi hmem => producible_fragmentsOf hi f hmem⟩
  obtain ⟨i, ⟨hi, u, v, hu, hv, ht⟩, -⟩ := step_next h
  rw [← hu.cfg] at hi hfits
  exact ht.fatal.trans (exec_live_of_fits (hu.inv hs) (hu.fatal.trans hf) (fun f hmem => hfits f (producible_fragmentsOf hi f hmem)) hv)

/-! ### FLUSH steps placed inside an operation -/

/-- Two states that differ at most in what is placed next, in where the bursts end and in the cells of `buf`. -/
structure SameButBursts (t u : State) : Prop where
  regs : SameRegs t u
  fatal : u.fatal = t.fatal
  shown : u.shown = t.shown

/-- Both operations complete, in states related by `SameButBursts`. -/
def AgreeButBursts (o p : Host.Outcome State Fault Refusal) : Prop := ∃ t u, o = .next t ∧ p = .next u ∧ SameButBursts t u

theorem SameButBursts.withSlots (t : State) (ps : List Bool) : SameButBursts t (t.withSlots ps) :=
  ⟨⟨rfl, rfl, rfl, rfl, rfl, rfl, rfl, rfl, rfl⟩, rfl, rfl⟩

theorem AgreeButBursts.withSlots (t : State) (ps : List Bool) : AgreeButBursts (.next t) (.next (t.withSlots ps)) :=
  ⟨t, _, rfl, rfl, SameButBursts.withSlots t ps⟩

/-- Two runs of the same fragments show the same text wherever their FLUSH steps fall, so only the registers are left to compare (20 R48). -/
theorem Ran.agree {e : Bool} {fs : List Fragment} {s : State} {ps : List Bool} {r q : Flow} {post post' : State → Prop}
    (h : Ran e fs s r post) (k : Ran e fs (s.withSlots ps) q post')
    (hregs : ∀ t u, u.cfg = t.cfg → u.fatal = t.fatal → post t → post' u → SameRegs t u) : AgreeButBursts r.outcome q.outcome := by
  obtain ⟨t, ht, hr, hp⟩ := h.outcome
  obtain ⟨u, hu, kr, kp⟩ := k.outcome
  have hcfg : u.cfg = t.cfg := kr.cfg.trans hr.cfg.symm
  have hfatal : u.fatal = t.fatal := kr.appended.fatal.trans hr.appended.fatal.symm
  exact ⟨t, u, ht, hu, hregs t u hcfg hfatal hp kp, hfatal, kr.appended.text.trans hr.appended.text.symm⟩

/-- A law that gives the registers in full leaves them no room to differ. -/
theorem RegsPost.sameRegs {s t u : State} {ps : List Bool} {p : Phase} {fi fp : BitVec 8} {bc : BitVec 4} {err : List Warning}
    (h : RegsPost s t p fi fp bc err) (k : RegsPost (s.withSlots ps) u p fi fp bc err) (hcfg : u.cfg = t.cfg) : SameRegs t u where
  riseTs := k.kept.riseTs.trans h.kept.riseTs.symm
  phase := k.phase.trans h.phase.symm
  frameIndex := k.frameIndex.trans h.frameIndex.symm
  framePos := k.framePos.trans h.framePos.symm
  bitCount := k.bitCount.trans h.bitCount.symm
  bits := k.bits.trans h.bits.symm
  cfg := hcfg
  err := k.err.trans h.err.symm
  inputs := k.kept.inputs.trans h.kept.inputs.symm

/-- The law of a submitted bit fixes the registers once it is known whether the core halted (43 R130, R134; 60 R163). -/
theorem BitPost.sameRegs {b : Bool} {s t u : State} {ps : List Bool} (h : BitPost b s t) (k : BitPost b (s.withSlots ps) u)
    (hc : s.bitCount.toNat ≤ 7) (hcfg : u.cfg = t.cfg) (hfatal : u.fatal = t.fatal) : SameRegs t u := by
  have hcounters : u.phase = t.phase ∧ u.frameIndex = t.frameIndex ∧ u.framePos = t.framePos ∧ u.bitCount = t.bitCount := by
    by_cases h7 : s.bitCount = 7
    · cases hf : t.fatal with
      | true =>
        obtain ⟨h1, h2, h3, h4⟩ := h.onFatal h7 hf
        obtain ⟨k1, k2, k3, k4⟩ := k.onFatal h7 (hfatal.trans hf)
        exact ⟨k1.trans h1.symm, k2.trans h2.symm, k4.trans h4.symm, k3.trans h3.symm⟩
      | false =>
        by_cases hq : seqCompletes s
        · obtain ⟨h1, h2, h3, h4, -⟩ := h.onSeq h7 hf hq
          obtain ⟨k1, k2, k3, k4, -⟩ := k.onSeq h7 (hfatal.trans hf) hq
          exact ⟨k1.trans h1.symm, k2.trans h2.symm, k3.trans h3.symm, k4.trans h4.symm⟩
        · obtain ⟨h1, h2, h3, h4⟩ := h.onByte h7 hf hq
          obtain ⟨k1, k2, k3, k4⟩ := k.onByte h7 (hfatal.trans hf) hq
          exact ⟨k1.trans h1.symm, k2.trans h2.symm, k3.trans h3.symm, k4.trans h4.symm⟩
    · obtain ⟨-, h1, h2, h3, h4⟩ := h.onMid h7
      obtain ⟨-, k1, k2, k3, k4⟩ := k.onMid h7
      exact ⟨k1.trans h1.symm, k2.trans h2.symm, k3.trans h3.symm, k4.trans h4.symm⟩
  obtain ⟨hphase, hindex, hpos, hcount⟩ := hcounters
  have h8 : s.bitCount.toNat < 8 := Nat.lt_succ_of_le hc
  exact ⟨k.kept.riseTs.trans h.kept.riseTs.symm, hphase, hindex, hpos, hcount, (k.bits h8).trans (h.bits h8).symm, hcfg,
    k.err.trans h.err.symm, k.kept.inputs.trans h.kept.inputs.symm⟩

theorem handle_frameConf_of_permissive (d : Ts) {s : State} (h : s.cfg.strictness = .permissive) :
    handle .frameConf d s = handleFrameConfP s := if_pos h

theorem handle_frameConf_of_strict (d : Ts) {s : State} (h : s.cfg.strictness ≠ .permissive) :
    handle .frameConf d s = handleFrameConfS s := if_neg h

theorem handleFrameConfS_agree {s : State} (ps : List Bool) (hb : BufInv s) (hf : s.fatal = false) :
    AgreeButBursts (handleFrameConfS s).outcome (handleFrameConfS (s.withSlots ps)).outcome :=
  (handleFrameConfS_ran hb hf).agree (handleFrameConfS_ran (withSlots_bufInv hb ps) hf) fun _ _ hcfg _ h k => h.sameRegs k hcfg

/-- Where the FLUSH steps fall inside a handler, it leaves the same registers (20 R47, R53). -/
theorem handle_agree (y : Symbol) (d : Ts) {s : State} (ps : List Bool) (hs : s.Inv) (hf : s.fatal = false) :
    AgreeButBursts (handle y d s).outcome (handle y d (s.withSlots ps)).outcome := by
  have hb := hs.bufInv
  have hb' := withSlots_bufInv hb ps
  have hc := hs.bitCountLive hf
  have bit (b : Bool) : AgreeButBursts (submitBit b s).outcome (submitBit b (s.withSlots ps)).outcome :=
    (submitBit_ran b hs.legal hb hf hc).agree (submitBit_ran b (s := s.withSlots ps) hs.legal hb' hf hc)
      fun _ _ hcfg hfatal h k => h.sameRegs k hc hcfg hfatal
  cases y with
  | msgStart => exact (handleMsgStart_ran hb hf).agree (handleMsgStart_ran hb' hf) fun _ _ hcfg _ h k => h.sameRegs k hcfg
  | frameConf =>
    by_cases hσ : s.cfg.strictness = .permissive
    · rw [handle_frameConf_of_permissive d hσ, handle_frameConf_of_permissive (s := s.withSlots ps) d hσ]
      exact AgreeButBursts.withSlots s ps
    · rw [handle_frameConf_of_strict d hσ, handle_frameConf_of_strict (s := s.withSlots ps) d hσ]
      exact handleFrameConfS_agree ps hb hf
  | frameStart => exact (handleFrameStart_ran hb hf).agree (handleFrameStart_ran hb' hf) fun _ _ hcfg _ h k => h.sameRegs k hcfg
  | bit0 => exact bit false
  | bit1 => exact bit true
  | invalid => exact (handleInvalid_ran d hb hf).agree (handleInvalid_ran d hb' hf) fun _ _ hcfg _ h k => h.sameRegs k hcfg

theorem flushed_withSlots (s : State) (ps : List Bool) : (s.withSlots ps).flushed = s.flushed.withSlots ps := by
  rw [flushed_eq, flushed_eq]
  rfl

/-- Every operation agrees with itself under other placements, from every state that meets the invariant. -/
theorem exec_agree (i : Instr) {s : State} (ps : List Bool) (hs : s.Inv) : AgreeButBursts (exec i s) (exec i (s.withSlots ps)) := by
  by_cases hi : i = .reset
  · subst hi
    exact AgreeButBursts.withSlots _ ps
  cases hf : s.fatal with
  | true =>
    rw [exec_of_fatal hf hi, exec_of_fatal (s := s.withSlots ps) hf hi]
    exact AgreeButBursts.withSlots s ps
  | false =>
    have row (f : State → Flow) (h : AgreeButBursts (f s).outcome (f (s.withSlots ps)).outcome) :
        AgreeButBursts (unlessFatal s f) (unlessFatal (s.withSlots ps) f) := by
      rwa [unlessFatal_of_live hf, unlessFatal_of_live (s := s.withSlots ps) hf]
    have symbol (y : Symbol) (d : Ts) := row (handle y d) (handle_agree y d ps hs hf)
    cases i with
    | reset => exact absurd rfl hi
    | nop => exact AgreeButBursts.withSlots s ps
    | flush =>
      rw [exec_flush hs, exec_flush (s := s.withSlots ps) { hs with }, State.withSlots_fatal, hf, flushed_withSlots]
      exact AgreeButBursts.withSlots s.flushed ps
    | edgeRise ts =>
      rw [exec_edgeRise_of_live ts hf, exec_edgeRise_of_live (s := s.withSlots ps) ts hf]
      exact AgreeButBursts.withSlots (s.withRiseTs ts) ps
    | edgeFall ts => exact symbol _ _
    | frameConfP => exact row handleFrameConfP (AgreeButBursts.withSlots s ps)
    | frameConfS => exact row handleFrameConfS (handleFrameConfS_agree ps hs.bufInv hf)
    | msgStart => exact symbol .msgStart 0
    | frameStart => exact symbol .frameStart 0
    | bit0 => exact symbol .bit0 0
    | bit1 => exact symbol .bit1 0
    | invalid d => exact symbol .invalid d

/-- Settles O40: the operation agrees with itself under no placement. -/
theorem placementOfFlushIsInvisible : Obligations.PlacementOfFlushIsInvisible := by
  intro i s slots hs
  obtain ⟨u, t, hu, ht, hsame⟩ := exec_agree i slots (s := s.withSlots []) { hs with }
  exact ⟨t, u, ht, hu, hsame.regs, hsame.fatal, hsame.shown⟩

end Sys2Proof.Machine
end

section
/-! An edge operation and a FLUSH presented together (60 R166 (3)): in either order, and with the FLUSH inside the operation (20 R47). -/

namespace Sys2Proof.Machine

/-! ### A FLUSH placed after the last Append -/

/-- The placements of one FLUSH, after `k` Appends that have none. -/
def flushAfter (k : Nat) : List Bool := List.replicate k false ++ [true]

/-- The state `u` is `s`, which has no placement, with one FLUSH placed that the next `n` Appends do not reach. -/
def State.Awaits (n : Nat) (s u : State) : Prop := s.slots = [] ∧ ∃ k, n ≤ k ∧ u = s.withSlots (flushAfter k)

/-- The same of two flows; what follows a halt makes no Append (60 R163). -/
def Flow.Awaits (n : Nat) (r q : Flow) : Prop :=
  match r with
  | .done s => ∃ u, q = .done u ∧ s.Awaits n u
  | .halted s => ∃ u, q = .halted u ∧ s.Awaits 0 u
  | .fault e => q = .fault e

/-- The procedure makes at most `n` Appends and reads the placements at none but the points after them, so a FLUSH placed later is the
only difference it makes and is still placed at its end. -/
def Waits (n : Nat) (f : State → Flow) : Prop := ∀ m s u, s.Awaits (n + m) u → (f s).Awaits m (f u)

theorem State.Awaits.mono {m n : Nat} {s u : State} (hmn : m ≤ n) (h : s.Awaits n u) : s.Awaits m u := by
  obtain ⟨hs, k, hk, hu⟩ := h
  exact ⟨hs, k, hmn.trans hk, hu⟩

theorem Waits.mono {m n : Nat} {f : State → Flow} (hmn : m ≤ n) (h : Waits m f) : Waits n f :=
  fun l s u hu => h l s u (hu.mono (Nat.add_le_add_right hmn l))

theorem Waits.fault (e : Fault) : Waits 0 fun _ => .fault e := fun _ _ _ _ => rfl

/-- A register update does not look at the placements. -/
theorem State.Awaits.update {n : Nat} {s u : State} {g : State → State} (hg : ∀ s l, g (s.withSlots l) = (g s).withSlots l)
    (h : s.Awaits n u) : (g s).Awaits n (g u) := by
  obtain ⟨hs, k, hk, rfl⟩ := h
  refine ⟨?_, k, hk, hg s _⟩
  calc (g s).slots
      = (g (s.withSlots [])).slots := by rw [← hs]; rfl
    _ = [] := by rw [hg, State.withSlots_slots]

theorem Waits.update {g : State → State} (hg : ∀ s l, g (s.withSlots l) = (g s).withSlots l) : Waits 0 fun s => .done (g s) :=
  fun m _ u hu => ⟨g u, rfl, (Nat.zero_add m ▸ hu).update hg⟩

theorem Waits.done : Waits 0 .done := Waits.update (g := id) fun _ _ => rfl

theorem Waits.halted {g : State → State} (hg : ∀ s l, g (s.withSlots l) = (g s).withSlots l) : Waits 0 fun s => .halted (g s) :=
  fun _ _ u hu => ⟨g u, rfl, (hu.mono (Nat.zero_le _)).update hg⟩

/-- A procedure after a register update. -/
theorem Waits.comp {n : Nat} {f : State → Flow} {g : State → State} (hf : Waits n f)
    (hg : ∀ s l, g (s.withSlots l) = (g s).withSlots l) : Waits n fun s => f (g s) :=
  fun m _ _ hu => hf m _ _ (hu.update hg)

/-- A procedure that depends on what it reads of the state. -/
theorem Waits.read {α : Type} {n : Nat} {f : α → State → Flow} (F : State → α) (hF : ∀ s l, F (s.withSlots l) = F s)
    (hf : ∀ a, Waits n (f a)) : Waits n fun s => f (F s) s := by
  rintro m s u hu
  obtain ⟨-, k, -, rfl⟩ := id hu
  beta_reduce
  rw [hF]
  exact hf (F s) m s _ hu

theorem Waits.ite {n : Nat} {f g : State → Flow} {p : State → Prop} [DecidablePred p] (hp : ∀ s l, p (s.withSlots l) ↔ p s)
    (hf : Waits n f) (hg : Waits n g) : Waits n fun s => if p s then f s else g s := by
  rintro m s u hu
  obtain ⟨-, k, -, rfl⟩ := id hu
  beta_reduce
  by_cases h : p s
  · rw [if_pos h, if_pos ((hp s _).mpr h)]
    exact hf m s _ hu
  · rw [if_neg h, if_neg fun h' => h ((hp s _).mp h')]
    exact hg m s _ hu

/-- What follows a procedure runs only where it completed, in both flows (60 R163). -/
theorem Flow.Awaits.andThen {m n : Nat} {r q : Flow} {g : State → Flow} (h : r.Awaits (n + m) q) (hg : Waits n g) :
    (r.andThen g).Awaits m (q.andThen g) := by
  cases r with
  | done t =>
    obtain ⟨v, rfl, htv⟩ := h
    exact hg m t v htv
  | halted t =>
    obtain ⟨v, rfl, htv⟩ := h
    exact ⟨v, rfl, htv⟩
  | fault e =>
    obtain rfl := h
    rfl

/-- In sequence the Appends add up. -/
theorem Waits.andThen {m n : Nat} {f g : State → Flow} (hf : Waits m f) (hg : Waits n g) : Waits (m + n) fun s => (f s).andThen g :=
  fun l s u hu => (hf (n + l) s u (Nat.add_assoc m n l ▸ hu)).andThen hg

/-! ### The procedures, line by line -/

theorem flush_waits : Waits 0 flush := by
  refine .ite (fun _ _ => Iff.rfl) (.read (fun s => memRead s 0 s.len) (fun _ _ => rfl) (f := fun r s => match r with
    | .ok burst => .done ((s.withSink (s.sink ++ [burst])).withLen 0)
    | .error e => .fault e) fun r => ?_) .done
  cases r with
  | ok burst => exact .update fun _ _ => rfl
  | error e => exact .fault e

theorem writeAtCursor_waits (t : Text) : Waits 0 (writeAtCursor t) :=
  .andThen (.ite (fun _ _ => Iff.rfl) (.update fun _ _ => rfl) (.fault _)) (.update fun _ _ => rfl)

theorem append_waits (t : Text) : Waits 0 (append t) :=
  .ite (fun _ _ => Iff.rfl) (.andThen flush_waits (.ite (fun _ _ => Iff.rfl) (.halted fun _ _ => rfl) (writeAtCursor_waits t)))
    (writeAtCursor_waits t)

/-- The point after an Append takes the placement of that Append away, here one with no FLUSH. -/
theorem grantPoint_waits : Waits 1 grantPoint := by
  rintro m s u ⟨hs, k, hk, rfl⟩
  obtain ⟨j, rfl⟩ : ∃ j, k = j + 1 := ⟨k - 1, by omega⟩
  rw [grantPoint_nil hs]
  exact ⟨s.withSlots (flushAfter j), rfl, hs, j, by omega, rfl⟩

theorem emit_waits (f : Fragment) : Waits 1 (emit f) :=
  .andThen (.read (fun s => fragmentText s.cfg f) (fun _ _ => rfl) append_waits) grantPoint_waits

theorem frameCompletionPolicy_waits : Waits 2 frameCompletionPolicy := by
  rw [funext frameCompletionPolicy_eq]
  have first := (emit_waits .frameDone).comp (g := fun s => s.withFramePos (satinc s.framePos)) fun _ _ => rfl
  have seq := first.andThen ((emit_waits .seqDone).andThen (flush_waits.andThen (.update (g := fullReset) fun _ _ => rfl)))
  have otherwise := Waits.update (g := fun s => s.withFramePos (satinc s.framePos)) fun _ _ => rfl
  exact .ite (fun _ _ => Iff.rfl) (first.mono (by omega)) (.ite (fun _ _ => Iff.rfl) seq (otherwise.mono (by omega)))

theorem completeByte_waits : Waits 3 completeByte :=
  .andThen (.read byteFragment (fun _ _ => rfl) emit_waits) (.andThen frameCompletionPolicy_waits (.update fun _ _ => rfl))

theorem storeBit_waits (b : Bool) : Waits 3 (storeBit b) := by
  have complete : Waits 3 fun s => if s.bitCount = 8 then completeByte s else .done s :=
    .ite (fun _ _ => Iff.rfl) completeByte_waits (Waits.done.mono (by omega))
  rintro m s u ⟨hs, k, hk, rfl⟩
  unfold storeBit
  by_cases h : s.bitCount.toNat < 8
  · rw [dif_pos h, dif_pos (show (s.withSlots (flushAfter k)).bitCount.toNat < 8 from h)]
    exact complete m _ _ ⟨hs, k, hk, rfl⟩
  · rw [dif_neg h, dif_neg (show ¬(s.withSlots (flushAfter k)).bitCount.toNat < 8 from h)]
    rfl

/-- The bit, its byte and the two markers: four Appends at most (70 R190). -/
theorem submitBit_waits (b : Bool) : Waits 4 (submitBit b) := by
  refine .read (fun s => s.cfg.verbosity) (fun _ _ => rfl) (f := fun v s => match v with
    | .trace => (emit (.bit b) s).andThen (storeBit b)
    | .compact => storeBit b s) fun v => ?_
  cases v with
  | trace => exact (emit_waits _).andThen (storeBit_waits b)
  | compact => exact (storeBit_waits b).mono (by omega)

theorem warnIncomplete_withSlots (s : State) (l : List Bool) : warnIncomplete (s.withSlots l) = (warnIncomplete s).withSlots l := by
  unfold warnIncomplete
  rw [State.withSlots_bitCount]
  split <;> rfl

theorem handleMsgStart_waits : Waits 1 handleMsgStart := by
  refine (emit_waits .msg).comp (g := fun s => (warnIncomplete s).zeroCounters.withPhase
    (if (warnIncomplete s).zeroCounters.cfg.strictness = .permissive then .inMsg else .preConf)) fun s l => ?_
  simp only [warnIncomplete_withSlots]
  rfl

theorem handleFrameConfS_waits : Waits 1 handleFrameConfS :=
  .ite (p := fun s => s.phase ≠ .idle) (fun _ _ => Iff.rfl) ((emit_waits .conf).comp fun _ _ => rfl) ((Waits.update fun _ _ => rfl).mono (by omega))

theorem handleFrameStart_waits : Waits 1 handleFrameStart := by
  refine (Waits.read State.frameIndex (fun _ _ => rfl) fun n => emit_waits (.frame n)).comp
    (g := fun s => (((warnIncomplete s).withFrameIndex (satinc (warnIncomplete s).frameIndex)).withFramePos 0).withBitCount 0) fun s l => ?_
  simp only [warnIncomplete_withSlots]
  rfl

theorem handleInvalid_waits (d : Ts) : Waits 0 (handleInvalid d) := by
  refine .update (g := fun s => fullReset (if s.phase = .inMsg then raiseWarn .decode d s else s)) fun s l => ?_
  rw [State.withSlots_phase]
  split <;> rfl

theorem handle_waits (y : Symbol) (d : Ts) : Waits 4 (handle y d) := by
  cases y with
  | msgStart => exact handleMsgStart_waits.mono (by omega)
  | frameConf => exact .ite (fun _ _ => Iff.rfl) (Waits.done.mono (by omega)) (handleFrameConfS_waits.mono (by omega))
  | frameStart => exact handleFrameStart_waits.mono (by omega)
  | bit0 => exact submitBit_waits false
  | bit1 => exact submitBit_waits true
  | invalid => exact (handleInvalid_waits d).mono (by omega)

/-! ### The operation and the step -/

theorem Flow.Awaits.outcome {r q : Flow} {t : State} (h : r.Awaits 0 q) (ht : r.outcome = .next t) :
    ∃ u, q.outcome = .next u ∧ t.Awaits 0 u := by
  cases r with
  | done s | halted s =>
    obtain rfl := Host.Outcome.next.inj ht
    obtain ⟨u, rfl, hu⟩ := h
    exact ⟨u, rfl, hu⟩
  | fault e => cases ht

/-- The guard on `fatal` comes before every Append (60 R163). -/
theorem Waits.unlessFatal {n : Nat} {f : State → Flow} {s t u : State} (hf : Waits n f) (hu : s.Awaits n u)
    (h : unlessFatal s f = .next t) : ∃ v, Machine.unlessFatal u f = .next v ∧ t.Awaits 0 v := by
  obtain ⟨-, k, -, rfl⟩ := id hu
  rcases unlessFatal_next h with ⟨hfatal, rfl⟩ | ⟨hlive, h⟩
  · exact ⟨_, unlessFatal_of_fatal (s := t.withSlots (flushAfter k)) hfatal f, hu.mono (Nat.zero_le n)⟩
  · rw [unlessFatal_of_live (s := s.withSlots (flushAfter k)) hlive]
    exact (hf 0 s _ hu).outcome h

/-- The FLUSH left over at the end of the operation is what the ports present next (log entry 26). -/
theorem settle_of_awaits {t u : State} (h : t.Awaits 0 u) : settle (.next u) = .next (t.withInputs (.word flushWord 0 [] :: t.inputs)) := by
  obtain ⟨ht, k, -, rfl⟩ := h
  have hany : (flushAfter k).any (fun b => b) = true := by simp [flushAfter]
  have hslots : (t.withInputs (.word flushWord 0 [] :: t.inputs)).withSlots [] = t.withInputs (.word flushWord 0 [] :: t.inputs) := by
    rw [← ht]; rfl
  rw [← hslots]
  exact if_pos hany

/-- Presenting something and taking it again leaves the state. -/
theorem withInputs_withInputs_of_inputs {t : State} {p : List Stimulus} (h : t.inputs = p) (q : List Stimulus) :
    (t.withInputs q).withInputs p = t := by
  subst h; rfl

theorem flushed_withInputs (s : State) (p : List Stimulus) : (s.withInputs p).flushed = s.flushed.withInputs p := by
  rw [flushed_eq, flushed_eq]
  rfl

/-- `FLUSH` does not look at what is presented next. -/
theorem exec_flush_withInputs {s t : State} (hs : s.Inv) (p : List Stimulus) (h : exec .flush s = .next t) :
    exec .flush (s.withInputs p) = .next (t.withInputs p) ∧ t.inputs = s.inputs := by
  rw [exec_flush ((SameCore.withInputs s p).inv hs), flushed_withInputs, State.withInputs_fatal, execFlush_next hs h]
  split
  · exact ⟨rfl, rfl⟩
  · exact ⟨rfl, (flushed_regs s).inputs⟩

/-! ### The words of an edge and a flush request -/

theorem alsoFlush_iff {w : OpWord} :
    OpWord.alsoFlush w = true ↔ OpWord.rst w = false ∧ OpWord.edgeValid w = true ∧ OpWord.flushReq w = true := by
  simp [OpWord.alsoFlush, and_assoc]

/-- A word with `ctl = 011x` decodes to its edge (30 R61). -/
theorem decodeOp_of_alsoFlush {w : OpWord} (h : OpWord.alsoFlush w = true) : ∃ ts, decodeOp w = .edgeRise ts ∨ decodeOp w = .edgeFall ts := by
  obtain ⟨hrst, hvalid, -⟩ := alsoFlush_iff.mp h
  refine ⟨OpWord.edgeTs w, ?_⟩
  cases hdir : OpWord.edgeDir w <;> simp [decodeOp, hrst, hvalid, hdir]

/-- Clearing the flush request leaves every other field. -/
theorem withoutFlushReq_fields (w : OpWord) : OpWord.flushReq (withoutFlushReq w) = false ∧ OpWord.rst (withoutFlushReq w) = OpWord.rst w ∧
    OpWord.edgeValid (withoutFlushReq w) = OpWord.edgeValid w ∧ OpWord.edgeDir (withoutFlushReq w) = OpWord.edgeDir w ∧
    OpWord.edgeTs (withoutFlushReq w) = OpWord.edgeTs w := by
  simp [withoutFlushReq, rst_eq, flushReq_eq, edgeValid_eq, edgeDir_eq, Laws.RowMatch.ctl_make]

/-- What is left of the word after its FLUSH is the same edge, alone. -/
theorem withoutFlushReq_of_alsoFlush {w : OpWord} (h : OpWord.alsoFlush w = true) :
    OpWord.alsoFlush (withoutFlushReq w) = false ∧ decodeOp (withoutFlushReq w) = decodeOp w ∧
    (OpWord.edgeValid (withoutFlushReq w) && !OpWord.rst (withoutFlushReq w)) = true := by
  obtain ⟨hrst, hvalid, -⟩ := alsoFlush_iff.mp h
  obtain ⟨hflush, hrst', hvalid', hdir, hts⟩ := withoutFlushReq_fields w
  simp [OpWord.alsoFlush, decodeOp, hflush, hrst', hvalid', hdir, hts, hrst, hvalid]

/-- Either edge is a guarded procedure of at most four Appends (40 R80, R81; 70 R190). -/
theorem exec_edge_waits {w : OpWord} (h : OpWord.alsoFlush w = true) {s t u : State} (hu : s.Awaits 4 u)
    (hexec : exec (decodeOp w) s = .next t) : ∃ v, exec (decodeOp w) u = .next v ∧ t.Awaits 0 v := by
  obtain ⟨ts, hdec | hdec⟩ := decodeOp_of_alsoFlush h
  · rw [hdec, exec_edgeRise] at hexec ⊢
    have hwaits := Waits.update (g := fun s => s.withRiseTs ts) fun _ _ => rfl
    exact (hwaits.mono (Nat.zero_le 4)).unlessFatal hu hexec
  · rw [hdec] at hexec ⊢
    have hwaits : Waits 4 fun s => handle (classify s.cfg (duration s.riseTs ts)) (duration s.riseTs ts) s :=
      .read (fun s => (classify s.cfg (duration s.riseTs ts), duration s.riseTs ts)) (fun _ _ => rfl)
        (f := fun yd => handle yd.1 yd.2) fun _ => handle_waits _ _
    exact hwaits.unlessFatal hu hexec

/-- Neither edge operation writes what is pending. -/
theorem exec_edge_inputs {w : OpWord} (h : OpWord.alsoFlush w = true) {s t : State} (hs : s.Inv)
    (hexec : exec (decodeOp w) s = .next t) : t.inputs = s.inputs := by
  obtain ⟨ts, hdec | hdec⟩ := decodeOp_of_alsoFlush h
  · rw [hdec, exec_edgeRise] at hexec
    rcases unlessFatal_next hexec with ⟨-, rfl⟩ | ⟨-, hdone⟩
    · rfl
    · obtain rfl := Host.Outcome.next.inj hdone
      rfl
  · rw [hdec, exec_edgeFall] at hexec
    rcases unlessFatal_next hexec with ⟨-, rfl⟩ | ⟨hf, hdone⟩
    · rfl
    · exact (handle_kept hs hf hdone).inputs

/-! ### The three orders -/

/-- With the FLUSHER first the step is FLUSH, and the edge alone is presented next. -/
theorem step_flush_first {s : State} {w : OpWord} {rest : List Stimulus} {slots : List Bool} (hs : s.Inv) (hw : OpWord.alsoFlush w = true)
    (h : s.inputs = .word w 0 slots :: rest) : ∃ t,
    exec .flush ((s.withInputs rest).withSlots []) = .next t ∧
    step s = .next (t.withInputs (.word (withoutFlushReq w) 0 slots :: rest)) ∧
    step (t.withInputs (.word (withoutFlushReq w) 0 slots :: rest)) = settle (exec (decodeOp w) (t.withSlots slots)) := by
  have hu : ((s.withInputs rest).withSlots []).Inv := SameCore.inv ⟨rest, [], rfl⟩ hs
  obtain ⟨t, ht⟩ := exec_completes .flush hu
  obtain ⟨hplaced, hin⟩ := exec_flush_withInputs hu (.word (withoutFlushReq w) 0 slots :: rest) ht
  have hin : t.inputs = rest := hin
  obtain ⟨halone, hdec, hedge⟩ := withoutFlushReq_of_alsoFlush hw
  refine ⟨t, ht, ?_, ?_⟩
  · rw [step_of_cons hs.legal h, issue, issueWord, if_pos hw, ← hplaced]
    exact settle_exec_of_slots_nil .flush ((SameCore.withInputs _ _).inv hu) rfl
  · obtain ⟨-, hword, -⟩ := stepRunsPresentedInstruction (t.withInputs (.word (withoutFlushReq w) 0 slots :: rest))
      (exec_advances hu rfl ht).inv.legal
    rw [hword _ 0 slots rest rfl halone, hdec, if_pos hedge, withInputs_withInputs_of_inputs hin]

/-- A word whose FLUSH is placed inside its edge operation is that operation with one more placement. -/
theorem step_flush_inside {s : State} {w : OpWord} {rest : List Stimulus} {k : Nat} {slots : List Bool} (hl : s.cfg.legal = true)
    (hw : OpWord.alsoFlush w = true) (h : s.inputs = .word w (k + 1) slots :: rest) :
    step s = settle (exec (decodeOp w) ((s.withInputs rest).withSlots (placeFlush k slots))) := by
  rw [step_of_cons hl h, issue, issueWord, if_pos hw, runPlaced]

/-- With the FLUSHER last the step is the edge operation: its at most four Appends leave the FLUSH after the fifth to be presented next. -/
theorem step_flush_last {s : State} {w : OpWord} {rest : List Stimulus} (hs : s.Inv) (hw : OpWord.alsoFlush w = true)
    (h : s.inputs = .word w afterLast [] :: rest) : ∃ t,
    exec (decodeOp w) ((s.withInputs rest).withSlots []) = .next t ∧
    step s = .next (t.withInputs (.word flushWord 0 [] :: rest)) ∧
    step (t.withInputs (.word flushWord 0 [] :: rest)) = exec .flush t := by
  have hu : ((s.withInputs rest).withSlots []).Inv := SameCore.inv ⟨rest, [], rfl⟩ hs
  obtain ⟨t, ht⟩ := exec_completes (decodeOp w) hu
  have hin : t.inputs = rest := exec_edge_inputs hw hu ht
  obtain ⟨v, hv, hawaits⟩ := exec_edge_waits hw (s := (s.withInputs rest).withSlots []) ⟨rfl, 4, le_rfl, rfl⟩ ht
  have hslots : t.withSlots [] = t := by rw [← hawaits.1]; rfl
  refine ⟨t, ht, ?_, ?_⟩
  · calc step s
        = settle (exec (decodeOp w) ((s.withInputs rest).withSlots (placeFlush 4 []))) := step_flush_inside hs.legal hw h
      _ = settle (.next v) := congrArg settle hv
      _ = .next (t.withInputs (.word flushWord 0 [] :: rest)) := by rw [settle_of_awaits hawaits, hin]
  · have hinv := (exec_advances hu (decodeOp_wf _ w) ht).inv
    obtain ⟨hword, -⟩ := stepWithoutPlacementIsExec (t.withInputs (.word flushWord 0 [] :: rest)) ((SameCore.withInputs t _).inv hinv)
    rw [hword flushWord 0 rest rfl rfl, withInputs_withInputs_of_inputs hin, hslots]
    rfl

/-- Settles O13: the FLUSH first, the FLUSH as what the operation leaves to be presented, and the FLUSH among the placements. -/
theorem edgeWithFlushRunsBothInEitherOrder : Obligations.EdgeWithFlushRunsBothInEitherOrder :=
  fun _ _ _ hs hw => ⟨fun _ => step_flush_first hs hw, step_flush_last hs hw, fun _ _ => step_flush_inside hs.legal hw⟩

end Sys2Proof.Machine
end

section
/-! The work of one operation (70 R190): the fragments it hands over, and the bursts those make when no FLUSH is placed inside it. -/

namespace Sys2Proof.Machine

/-! ### Fragments -/

/-- The policy hands over at most `F_FRAME_DONE` and `F_SEQ_DONE` (42 R109). -/
theorem completionFragments_length_le (s : State) : (completionFragments s).length ≤ 2 := by
  unfold completionFragments
  split
  · simp
  · split <;> simp

/-- A bit hands over at most its digit, its byte and the policy's two markers (43 R130, R134). -/
theorem bitFragments_length_le (b : Bool) (s : State) : (bitFragments b s).length ≤ 4 := by
  have hmarkers := completionFragments_length_le s
  by_cases h7 : s.bitCount = 7
  · rw [bitFragments_completing b h7]
    cases s.cfg.verbosity <;> simp <;> omega
  · rw [bitFragments_inside b h7]
    cases s.cfg.verbosity <;> simp

theorem symbolFragments_length_le (y : Symbol) (s : State) : (symbolFragments y s).length ≤ 4 := by
  cases y with
  | bit0 => exact bitFragments_length_le false s
  | bit1 => exact bitFragments_length_le true s
  | msgStart | frameStart | invalid => simp [symbolFragments]
  | frameConf => dsimp only [symbolFragments]; split <;> simp

theorem fragmentsOf_length_le (i : Instr) (s : State) : (fragmentsOf i s).length ≤ 4 := by
  unfold fragmentsOf
  split
  · simp
  · cases i with
    | edgeFall ts => exact symbolFragments_length_le _ s
    | bit0 => exact bitFragments_length_le false s
    | bit1 => exact bitFragments_length_le true s
    | frameConfS => dsimp only; split <;> simp
    | reset | edgeRise | flush | nop | msgStart | frameConfP | frameStart | invalid => simp

/-! ### Bursts -/

theorem Output.flush_sink_length_le (o : Output) : o.flush.sink.length ≤ o.sink.length + 1 := by
  unfold Output.flush
  split <;> simp

/-- An `Append` flushes at most once, before it writes (44 R140). -/
theorem Output.append_sink_length_le (cap : Nat) (t : Text) (o : Output) : (o.append cap t).sink.length ≤ o.sink.length + 1 := by
  unfold Output.append
  split
  · exact Nat.le_succ _
  · exact o.flush_sink_length_le

theorem Output.finish_sink_length_le (o : Output) (e : Bool) : (o.finish e).sink.length ≤ o.sink.length + 1 := by
  cases e with
  | false => exact Nat.le_succ _
  | true => exact o.flush_sink_length_le

/-- With no placement each text handed over adds at most one burst. -/
theorem Output.run_sink_length_le (cap : Nat) (ts : List Text) (o : Output) :
    (Output.run cap ts [] o).sink.length ≤ o.sink.length + ts.length := by
  induction ts generalizing o with
  | nil => exact le_rfl
  | cons t ts ih =>
    unfold Output.run
    split
    · have happend := o.append_sink_length_le cap t
      have hrest := ih (o.append cap t)
      simp only [List.length_cons, List.head?_nil, reduceCtorEq, if_false, List.tail_nil]
      omega
    · have hflush := o.flush_sink_length_le
      rw [List.length_cons]
      omega

/-- One burst for each fragment and one for the operation's own flush. -/
theorem outputAfter_sink_length_le (i : Instr) {s : State} (hslots : s.slots = []) :
    (outputAfter i s).sink.length ≤ s.sink.length + (fragmentsOf i s).length + 1 := by
  have hrun := Output.run_sink_length_le s.cfg.cap ((fragmentsOf i s).map (fragmentText s.cfg)) s.output
  rw [List.length_map] at hrun
  rw [outputAfter, hslots]
  exact (Output.finish_sink_length_le _ _).trans (Nat.succ_le_succ hrun)

/-- Settles O44: an operation's bursts are those its fragments make (O39), and there are at most four fragments. -/
theorem workOfOneOperationIsBounded : Obligations.WorkOfOneOperationIsBounded := by
  refine fun i s t hs => ⟨fragmentsOf_length_le i s, fun hslots h => ?_⟩
  by_cases hi : i = .reset
  · subst hi
    obtain rfl := Host.Outcome.next.inj h
    exact Nat.le_add_right _ 5
  · obtain ⟨u, hu, hout⟩ := exec_output hs hi
    obtain rfl : u = t := Host.Outcome.next.inj (hu.symm.trans h)
    have hbursts := outputAfter_sink_length_le i hslots
    have hfragments := fragmentsOf_length_le i s
    rw [(len_sink_of_output hout).2]
    omega

end Sys2Proof.Machine
end

section
/-! `RESET` (70 R180) and its precedence in an operation word (30 R61, 60 R166). -/

namespace Sys2Proof.Machine

theorem decodeOp_of_rst {w : OpWord} (h : OpWord.rst w = true) : decodeOp w = .reset := if_pos h

/-- `RESET` overrides an edge and a flush request of the same word (60 R166). -/
theorem alsoFlush_of_rst {w : OpWord} (h : OpWord.rst w = true) : OpWord.alsoFlush w = false := by
  simp [OpWord.alsoFlush, h]

/-- A word with `rst == 1` is the `RESET` operation, its edge's placements discarded with the edge. -/
theorem step_of_rst {s : State} {w : OpWord} {grant : Nat} {slots : List Bool} {rest : List Stimulus} (hl : s.cfg.legal = true)
    (h : s.inputs = .word w grant slots :: rest) (hw : OpWord.rst w = true) :
    step s = exec .reset ((s.withInputs rest).withSlots []) := by
  obtain ⟨-, hword, -⟩ := stepRunsPresentedInstruction s hl
  have hplain : (OpWord.edgeValid w && !OpWord.rst w) = false := by simp [hw]
  rw [hword w grant slots rest h (alsoFlush_of_rst hw), decodeOp_of_rst hw, hplain]
  exact settle_next_of_slots_nil rfl

/-- Settles O15: the lines of `RESET`, its precedence over the rest of the word, and that every other operation leaves a halted core as it is. -/
theorem resetResult : Obligations.ResetResult := by
  refine ⟨fun _ => rfl, fun s w grant slots rest => step_of_rst, fun i s t hf h ht => ?_⟩
  by_contra hi
  obtain rfl : s = t := Host.Outcome.next.inj ((exec_of_fatal hf hi).symm.trans h)
  exact Bool.false_ne_true (ht.symm.trans hf)

end Sys2Proof.Machine
end
